-- ==== Sys2Proof/Config.lean ====
section
/-! DEFINITION. What an implementation of the block fixes: the numeric literals of 00_scope.md rule R8, each under
a name of its own (93_implementation_defined.md I21), and the free values that the spec leaves open (rule R9). -/

namespace Sys2Proof.Config

/-- Memory size in bytes (R8, R40). -/
@[simp] abbrev memSize : Nat := 4096

/-- The highest address of a memory byte, 0xFFF (R40). -/
@[simp] abbrev lastAddr : Nat := memSize - 1

/-- The address at which a program image is loaded and at which execution starts (R8, R41, R182). -/
@[simp] abbrev loadAddr : Nat := 0x200

/-- The longest program image LOAD accepts, 3584 bytes (R8, R181). -/
@[simp] abbrev maxImage : Nat := memSize - loadAddr

/-- The number of bytes of the glyph area 0x000-0x04F: sixteen glyphs of five bytes (R8, R41). -/
abbrev fontSize : Nat := 80

/-- Bytes of one glyph (R8, R41, R122). -/
@[simp] abbrev glyphSize : Nat := 5

/-- The number of general registers (R8, R22). -/
abbrev numRegs : Nat := 16

/-- The number of slots of the call stack (R8, R26). -/
abbrev stackSlots : Nat := 16

/-- The number of rows of the display (R8, R28). -/
abbrev rows : Nat := 32

/-- The number of columns of the display (R8, R28). -/
abbrev cols : Nat := 64

/-- The number of logical key codes (R8, R31, R169). -/
abbrev numKeys : Nat := 16

/-- FREE VALUE (parameter `RND`, R9, R108, D24): the random byte of the `k`-th STEP whose byte the host did not give.
No law binds it. -/
opaque rndDraw : Nat → BitVec 8

/-- FREE VALUE (parameter `RELEASE_CHOICE`, R9, R166): which key an implementation prefers to report when the
mask of released keys holds several. Only the choice rule built on it (`Machine.releaseChoice`) is used. -/
opaque releasePick : BitVec 16 → Fin numKeys

end Sys2Proof.Config
end

