-- ==== Sys2Proof/Word.lean ====
section
/-! DEFINITION. The word types of the block (00_scope.md rules R8, R10): bytes, 16-bit words, register numbers, key
codes and key masks. -/

namespace Sys2Proof

/-- An 8-bit value: a memory byte, a general register, a timer. -/
abbrev Byte := BitVec 8

/-- A 16-bit value: an instruction word, `I`, `pc`, a call-stack slot. -/
abbrev Word := BitVec 16

/-- The number of a general register, 0 to 15 (R22). -/
abbrev RegIdx := Fin Config.numRegs

/-- A logical key code, 0 to 15 (R169). -/
abbrev Key := Fin Config.numKeys

/-- A set of key codes as a 16-bit mask, bit `k` for key `k` (R31, D29). -/
abbrev KeyMask := BitVec 16

/-- `VF`, the general register that is also the flag register (R23). -/
abbrev VF : RegIdx := 15

end Sys2Proof
end

