-- ==== Sys2Proof/Machine/Flags.lean ====
section
/-! DEFINITION. The three values an instruction writes into VF as a flag (10_state.md rules R23, R32). Each is 0x01 or
0x00. -/

namespace Sys2Proof.Machine

/-- A condition as a flag byte. -/
def flagByte (c : Bool) : Byte := if c then 0x01 else 0x00

/-- The carry of 8xy4: 1 when the widened sum exceeds 255 (R106). -/
def carryFlag (a b : Byte) : Byte := flagByte (decide (a.toNat + b.toNat > 255))

/-- The no-borrow flag of 8xy5: 1 when `a > b`, strictly (R107). -/
def noBorrowFlag (a b : Byte) : Byte := flagByte (decide (a.toNat > b.toNat))

/-- The collision flag of Dxyn: 1 when a pixel went from on to off (R131). -/
def collisionFlag (hit : Bool) : Byte := flagByte hit

end Sys2Proof.Machine
end

