-- ==== Sys2Proof/Syntax.lean ====
section
/-! DEFINITION. The instructions, one constructor for each row of the opcode map (30_encoding.md rules R65, R69), with
the operand fields of rule R61 already taken apart: register numbers `x`, `y`, the immediate `kk`, the address `nnn`
and the row count `n`. -/

namespace Sys2Proof

/-- A decoded instruction (R69): the 28 rows of R65 in the table's order. -/
inductive Instr where
  /-- `00E0` CLS: clear the display (R130). -/
  | cls
  /-- `00EE` RET: return from subroutine (R90). -/
  | ret
  /-- `1nnn` JP nnn (R91). -/
  | jp (nnn : BitVec 12)
  /-- `2nnn` CALL nnn (R92). -/
  | call (nnn : BitVec 12)
  /-- `3xkk` SE Vx, kk: skip if equal (R93). -/
  | seImm (x : RegIdx) (kk : Byte)
  /-- `4xkk` SNE Vx, kk: skip if not equal (R94). -/
  | sneImm (x : RegIdx) (kk : Byte)
  /-- `5xy0` SE Vx, Vy: skip if registers equal (R95). -/
  | seReg (x y : RegIdx)
  /-- `6xkk` LD Vx, kk (R100). -/
  | ldImm (x : RegIdx) (kk : Byte)
  /-- `7xkk` ADD Vx, kk: no flag (R101). -/
  | addImm (x : RegIdx) (kk : Byte)
  /-- `8xy0` LD Vx, Vy (R102). -/
  | ldReg (x y : RegIdx)
  /-- `8xy2` AND Vx, Vy (R103). -/
  | andReg (x y : RegIdx)
  /-- `8xy3` XOR Vx, Vy (R104). -/
  | xorReg (x y : RegIdx)
  /-- `8xy4` ADD Vx, Vy: carry in VF (R106). -/
  | addReg (x y : RegIdx)
  /-- `8xy5` SUB Vx, Vy: no-borrow in VF (R107). -/
  | subReg (x y : RegIdx)
  /-- `Annn` LD I, nnn (R120). -/
  | ldI (nnn : BitVec 12)
  /-- `Cxkk` RND Vx, kk (R108). -/
  | rnd (x : RegIdx) (kk : Byte)
  /-- `Dxyn` DRW Vx, Vy, n: draw a sprite of `n` rows, 0 to 15 (R131). -/
  | drw (x y : RegIdx) (n : Nat)
  /-- `Ex9E` SKP Vx: skip if key pressed (R143). -/
  | skp (x : RegIdx)
  /-- `ExA1` SKNP Vx: skip if key not pressed (R144). -/
  | sknp (x : RegIdx)
  /-- `Fx07` LD Vx, DT (R140). -/
  | ldVxDt (x : RegIdx)
  /-- `Fx0A` LD Vx, K: wait for a key release (R145). -/
  | ldVxK (x : RegIdx)
  /-- `Fx15` LD DT, Vx (R141). -/
  | ldDtVx (x : RegIdx)
  /-- `Fx18` LD ST, Vx (R142). -/
  | ldStVx (x : RegIdx)
  /-- `Fx1E` ADD I, Vx (R121). -/
  | addI (x : RegIdx)
  /-- `Fx29` LD F, Vx: point I at a glyph (R122). -/
  | ldF (x : RegIdx)
  /-- `Fx33` LD B, Vx: store decimal digits (R123). -/
  | ldB (x : RegIdx)
  /-- `Fx55` LD [I], Vx: store V0..Vx (R124). -/
  | storeRegs (x : RegIdx)
  /-- `Fx65` LD Vx, [I]: load V0..Vx (R125). -/
  | loadRegs (x : RegIdx)
  deriving DecidableEq, Repr

end Sys2Proof
end

