-- ==== Sys2Proof/WellFormed.lean ====
section
/-! DEFINITION. When an instruction as syntax is one that a word can encode (30_encoding.md rule R63). Register numbers,
`kk` and `nnn` carry their bounds in their types; the row count of Dxyn is a count, and its bound is checked here. -/

namespace Sys2Proof

/-- `n` is an unsigned count, 0 to 15 (R63). -/
def rowCountOk (n : Nat) : Bool := n ≤ 15

/-- The instruction has an encoding: every operand fits its field (R61, R63). -/
def Instr.wf : Instr → Bool
  | .cls => true
  | .ret => true
  | .jp _ => true
  | .call _ => true
  | .seImm _ _ => true
  | .sneImm _ _ => true
  | .seReg _ _ => true
  | .ldImm _ _ => true
  | .addImm _ _ => true
  | .ldReg _ _ => true
  | .andReg _ _ => true
  | .xorReg _ _ => true
  | .addReg _ _ => true
  | .subReg _ _ => true
  | .ldI _ => true
  | .rnd _ _ => true
  | .drw _ _ n => rowCountOk n
  | .skp _ => true
  | .sknp _ => true
  | .ldVxDt _ => true
  | .ldVxK _ => true
  | .ldDtVx _ => true
  | .ldStVx _ => true
  | .addI _ => true
  | .ldF _ => true
  | .ldB _ => true
  | .storeRegs _ => true
  | .loadRegs _ => true

end Sys2Proof
end

