-- ==== Sys2Proof/Decode.lean ====
section
/-! DEFINITION. The decoder and the encoder, written from the same tables (30_encoding.md rules R61, R62, R64, R65).
Decoding is total: a word that matches no row is rejected by name. Every bit outside the operand fields must match
(R64, D8). -/

namespace Sys2Proof

/-! ### Operand fields (R61) -/

/-- `op = w[15:12]`, the opcode family. -/
def fieldOp (w : Word) : BitVec 4 := w.extractLsb' 12 4

/-- `x = w[11:8]`, a register number. -/
def fieldX (w : Word) : RegIdx := (w.extractLsb' 8 4).toFin

/-- `y = w[7:4]`, a register number. -/
def fieldY (w : Word) : RegIdx := (w.extractLsb' 4 4).toFin

/-- `n = w[3:0]`: the row count of Dxyn, or the sub-operation of 5xyN and 8xyN. -/
def fieldN (w : Word) : BitVec 4 := w.extractLsb' 0 4

/-- `kk = w[7:0]`: the immediate, or the sub-operation byte of ExNN and FxNN. -/
def fieldKK (w : Word) : Byte := w.extractLsb' 0 8

/-- `nnn = w[11:0]`, a 12-bit address. -/
def fieldNNN (w : Word) : BitVec 12 := w.extractLsb' 0 12

/-! ### Decoding (R64) -/

/-- `decode(w)` of R64; `none` is `Invalid`. -/
def decodeWord (w : Word) : Option Instr :=
  match fieldOp w with
  | 0x0#4 => if w = 0x00E0#16 then some .cls else if w = 0x00EE#16 then some .ret else none
  | 0x1#4 => some (.jp (fieldNNN w))
  | 0x2#4 => some (.call (fieldNNN w))
  | 0x3#4 => some (.seImm (fieldX w) (fieldKK w))
  | 0x4#4 => some (.sneImm (fieldX w) (fieldKK w))
  | 0x5#4 => if fieldN w = 0x0#4 then some (.seReg (fieldX w) (fieldY w)) else none
  | 0x6#4 => some (.ldImm (fieldX w) (fieldKK w))
  | 0x7#4 => some (.addImm (fieldX w) (fieldKK w))
  | 0x8#4 =>
    match fieldN w with
    | 0x0#4 => some (.ldReg (fieldX w) (fieldY w))
    | 0x2#4 => some (.andReg (fieldX w) (fieldY w))
    | 0x3#4 => some (.xorReg (fieldX w) (fieldY w))
    | 0x4#4 => some (.addReg (fieldX w) (fieldY w))
    | 0x5#4 => some (.subReg (fieldX w) (fieldY w))
    | _ => none
  | 0xA#4 => some (.ldI (fieldNNN w))
  | 0xC#4 => some (.rnd (fieldX w) (fieldKK w))
  | 0xD#4 => some (.drw (fieldX w) (fieldY w) (fieldN w).toNat)
  | 0xE#4 =>
    match fieldKK w with
    | 0x9E#8 => some (.skp (fieldX w))
    | 0xA1#8 => some (.sknp (fieldX w))
    | _ => none
  | 0xF#4 =>
    match fieldKK w with
    | 0x07#8 => some (.ldVxDt (fieldX w))
    | 0x0A#8 => some (.ldVxK (fieldX w))
    | 0x15#8 => some (.ldDtVx (fieldX w))
    | 0x18#8 => some (.ldStVx (fieldX w))
    | 0x1E#8 => some (.addI (fieldX w))
    | 0x29#8 => some (.ldF (fieldX w))
    | 0x33#8 => some (.ldB (fieldX w))
    | 0x55#8 => some (.storeRegs (fieldX w))
    | 0x65#8 => some (.loadRegs (fieldX w))
    | _ => none
  | _ => none

/-- A field's bits put at bit `k` of an otherwise zero word (R10, R61). -/
def place {n : Nat} (v : BitVec n) (k : Nat) : Word := v.setWidth 16 <<< k

/-- `{hi, lo}` of two bytes: the big-endian word of R42. -/
def wordOfBytes (hi lo : Byte) : Word := place hi 8 ||| place lo 0

/-- The byte of a word at its lower address, bits 15:8 (R42). -/
def wordHi (w : Word) : Byte := w.extractLsb' 8 8

/-- The byte of a word at its higher address, bits 7:0 (R42). -/
def wordLo (w : Word) : Byte := w.extractLsb' 0 8

/-- Why bytes are no instruction. -/
inductive Reject where
  /-- Fewer than the two bytes of an instruction (R60). -/
  | truncated
  /-- The word matches no row of the opcode map (R64, R66). -/
  | invalidOpcode (w : Word)
  deriving DecidableEq, Repr

/-- What the decoder answers on bytes. -/
inductive Decoded where
  /-- An instruction and the bytes after it. -/
  | instr (i : Instr) (rest : List Byte)
  /-- A rejection by name. -/
  | rejected (r : Reject)
  deriving DecidableEq, Repr

/-- Decode the instruction at the front of some bytes: always two bytes, big-endian (R42, R60, R71). -/
def decode : List Byte → Decoded
  | hi :: lo :: rest =>
    match decodeWord (wordOfBytes hi lo) with
    | some i => .instr i rest
    | none => .rejected (.invalidOpcode (wordOfBytes hi lo))
  | _ => .rejected .truncated

/-! ### The encoder (R62, R65) -/

/-- A register number as the four bits of its field. -/
def regBits (x : RegIdx) : BitVec 4 := BitVec.ofFin x

/-- Format `A`: `op nnn`. -/
def encA (op : BitVec 4) (nnn : BitVec 12) : Word := place op 12 ||| place nnn 0

/-- Formats `XK` and `XS`: `op x kk`. -/
def encXK (op : BitVec 4) (x : RegIdx) (kk : Byte) : Word :=
  place op 12 ||| place (regBits x) 8 ||| place kk 0

/-- Formats `XY` and `XYN`: `op x y n`. -/
def encXYN (op : BitVec 4) (x y : RegIdx) (n : BitVec 4) : Word :=
  place op 12 ||| place (regBits x) 8 ||| place (regBits y) 4 ||| place n 0

/-- The word of an instruction (R65), for a well-formed one the only word that decodes to it. -/
def encode : Instr → Word
  | .cls => 0x00E0#16
  | .ret => 0x00EE#16
  | .jp nnn => encA 0x1 nnn
  | .call nnn => encA 0x2 nnn
  | .seImm x kk => encXK 0x3 x kk
  | .sneImm x kk => encXK 0x4 x kk
  | .seReg x y => encXYN 0x5 x y 0x0
  | .ldImm x kk => encXK 0x6 x kk
  | .addImm x kk => encXK 0x7 x kk
  | .ldReg x y => encXYN 0x8 x y 0x0
  | .andReg x y => encXYN 0x8 x y 0x2
  | .xorReg x y => encXYN 0x8 x y 0x3
  | .addReg x y => encXYN 0x8 x y 0x4
  | .subReg x y => encXYN 0x8 x y 0x5
  | .ldI nnn => encA 0xA nnn
  | .rnd x kk => encXK 0xC x kk
  | .drw x y n => encXYN 0xD x y (BitVec.ofNat 4 n)
  | .skp x => encXK 0xE x 0x9E
  | .sknp x => encXK 0xE x 0xA1
  | .ldVxDt x => encXK 0xF x 0x07
  | .ldVxK x => encXK 0xF x 0x0A
  | .ldDtVx x => encXK 0xF x 0x15
  | .ldStVx x => encXK 0xF x 0x18
  | .addI x => encXK 0xF x 0x1E
  | .ldF x => encXK 0xF x 0x29
  | .ldB x => encXK 0xF x 0x33
  | .storeRegs x => encXK 0xF x 0x55
  | .loadRegs x => encXK 0xF x 0x65

/-- The two bytes of an instruction as memory holds them (R42). -/
def encodeBytes (i : Instr) : List Byte := [wordHi (encode i), wordLo (encode i)]

/-! ### The opcode map as a table (R65) -/

/-- The match value and the mask of one row of R65. -/
structure OpcodeRow where
  mask : Word
  value : Word
  deriving DecidableEq, Repr

/-- A word is the row's instruction when `w & mask == match` (R65). -/
def OpcodeRow.accepts (r : OpcodeRow) (w : Word) : Bool := w &&& r.mask == r.value

/-- The 28 rows of R65, in its order. -/
def opcodeRows : List OpcodeRow :=
  [⟨0xFFFF, 0x00E0⟩, ⟨0xFFFF, 0x00EE⟩, ⟨0xF000, 0x1000⟩, ⟨0xF000, 0x2000⟩, ⟨0xF000, 0x3000⟩, ⟨0xF000, 0x4000⟩,
    ⟨0xF00F, 0x5000⟩] ++
  [⟨0xF000, 0x6000⟩, ⟨0xF000, 0x7000⟩, ⟨0xF00F, 0x8000⟩, ⟨0xF00F, 0x8002⟩, ⟨0xF00F, 0x8003⟩, ⟨0xF00F, 0x8004⟩,
    ⟨0xF00F, 0x8005⟩] ++
  [⟨0xF000, 0xA000⟩, ⟨0xF000, 0xC000⟩, ⟨0xF000, 0xD000⟩, ⟨0xF0FF, 0xE09E⟩, ⟨0xF0FF, 0xE0A1⟩, ⟨0xF0FF, 0xF007⟩,
    ⟨0xF0FF, 0xF00A⟩] ++
  [⟨0xF0FF, 0xF015⟩, ⟨0xF0FF, 0xF018⟩, ⟨0xF0FF, 0xF01E⟩, ⟨0xF0FF, 0xF029⟩, ⟨0xF0FF, 0xF033⟩, ⟨0xF0FF, 0xF055⟩,
    ⟨0xF0FF, 0xF065⟩]

/-- The row of R65 that an instruction stands in. -/
def Instr.row : Instr → OpcodeRow
  | .cls => ⟨0xFFFF, 0x00E0⟩
  | .ret => ⟨0xFFFF, 0x00EE⟩
  | .jp _ => ⟨0xF000, 0x1000⟩
  | .call _ => ⟨0xF000, 0x2000⟩
  | .seImm _ _ => ⟨0xF000, 0x3000⟩
  | .sneImm _ _ => ⟨0xF000, 0x4000⟩
  | .seReg _ _ => ⟨0xF00F, 0x5000⟩
  | .ldImm _ _ => ⟨0xF000, 0x6000⟩
  | .addImm _ _ => ⟨0xF000, 0x7000⟩
  | .ldReg _ _ => ⟨0xF00F, 0x8000⟩
  | .andReg _ _ => ⟨0xF00F, 0x8002⟩
  | .xorReg _ _ => ⟨0xF00F, 0x8003⟩
  | .addReg _ _ => ⟨0xF00F, 0x8004⟩
  | .subReg _ _ => ⟨0xF00F, 0x8005⟩
  | .ldI _ => ⟨0xF000, 0xA000⟩
  | .rnd _ _ => ⟨0xF000, 0xC000⟩
  | .drw _ _ _ => ⟨0xF000, 0xD000⟩
  | .skp _ => ⟨0xF0FF, 0xE09E⟩
  | .sknp _ => ⟨0xF0FF, 0xE0A1⟩
  | .ldVxDt _ => ⟨0xF0FF, 0xF007⟩
  | .ldVxK _ => ⟨0xF0FF, 0xF00A⟩
  | .ldDtVx _ => ⟨0xF0FF, 0xF015⟩
  | .ldStVx _ => ⟨0xF0FF, 0xF018⟩
  | .addI _ => ⟨0xF0FF, 0xF01E⟩
  | .ldF _ => ⟨0xF0FF, 0xF029⟩
  | .ldB _ => ⟨0xF0FF, 0xF033⟩
  | .storeRegs _ => ⟨0xF0FF, 0xF055⟩
  | .loadRegs _ => ⟨0xF0FF, 0xF065⟩

/-! ### The host's way in -/

/-- The instruction the decoder reads from the word `w` of `nbits` bits, laid out as memory holds it (R42). -/
def decodeTableWord (nbits w : Nat) : Option Instr :=
  let word := BitVec.ofNat 16 (w % 2 ^ nbits)
  match decode [wordHi word, wordLo word] with
  | .instr i _ => some i
  | .rejected _ => none

end Sys2Proof
end

