-- ==== Sys2Proof/Machine/State.lean ====
section
/-! DEFINITION. The state of the block, plain data (10_state.md rule R20), and its value after a LOAD of an empty image
(rule R36). The last field, `host`, is the model's own: the inputs and the result of the host's transactions
(60_exceptions.md rule R163), which the spec does not count as state (R21); see notes/assumptions/1.md. -/

namespace Sys2Proof.Machine

/-- Memory: the bytes that differ from what memory holds after a LOAD of an empty image with the default glyphs, by
strictly rising address (`Memory.wf` says so; `Memory.background` is what an unlisted address reads as). -/
abbrev Memory := List Host.Cell

/-- The display buffer: 32 rows of 64 pixels, row 0 at the top, column 0 at the left, `true` for on (R28). -/
abbrev Display := Vector (Vector Bool Config.cols) Config.rows

/-- The kinds of typed error a STEP can end in (R150). ProgramTooLarge is LOAD's and never in the fault status (R181): it
is a result of its own, `TxResult.programTooLarge`. -/
inductive FaultKind where
  /-- A word outside the opcode map (R66). -/
  | invalidOpcode
  /-- 2nnn with all 16 slots occupied (R92). -/
  | callStackOverflow
  /-- 00EE with an empty stack (R90). -/
  | callStackUnderflow
  /-- Dxyn, Fx33, Fx55 or Fx65 with an access past 0xFFF (R44). -/
  | memoryOutOfRange
  /-- A fetch at a pc above 0xFFE (R82). -/
  | pcOutOfRange
  /-- Fx1E with a sum above 0xFFFF (R121). -/
  | indexOverflow
  deriving DecidableEq, Repr

/-- The fault status (R34): the record of the first fault. -/
structure FaultStatus where
  /-- 1 bit: the block has faulted and is halted. -/
  halted : Bool
  /-- The fault code of R150, 0 while running. -/
  fcode : BitVec 4
  /-- The instruction word of the faulting STEP, 0 when none was fetched. -/
  fword : Word
  /-- The pc of the faulting STEP. -/
  fpc : Word
  deriving DecidableEq, Repr

/-- A transaction of the host (R163), with its inputs. -/
inductive HostTx where
  /-- LOAD(image, FONT) (R180). -/
  | load (font : Vector Byte Config.fontSize) (image : List Byte)
  /-- STEP(keys, rnd) (R80). -/
  | step (keys : KeyMask) (rnd : Byte)
  /-- TICK (R164). -/
  | tick
  deriving DecidableEq, Repr

/-- The result a transaction returns to the host (R155, R163). -/
inductive TxResult where
  | ok
  | fault (kind : FaultKind) (word addr : Word)
  | halted
  /-- LOAD's refusal of an image that does not fit (R181). -/
  | programTooLarge
  deriving DecidableEq, Repr

/-- The model's own fields: what stands between the host and the block (notes/assumptions/1.md to 3.md, 9.md). -/
structure HostPort where
  /-- The pressed-key set of the STEP under way (R80). -/
  keys : KeyMask
  /-- The random byte of the STEP under way (R80), a free value. -/
  rnd : Byte
  /-- How many free draws of `Config.rndDraw` have been taken. -/
  draws : Nat
  /-- The transactions the host has asked for and the block has not performed yet, oldest first. -/
  pending : List HostTx
  /-- The result of the last transaction performed. -/
  result : TxResult
  /-- A block exists: false after a LOAD that was ProgramTooLarge (R181), until a LOAD that is not. While it is false the
  other fields of the state are no block's (notes/assumptions/9.md). -/
  blockExists : Bool
  deriving DecidableEq, Repr

end Sys2Proof.Machine

namespace Sys2Proof.Machine

/-- The state: R20's table, in its order, then the model's own host port. -/
structure State where
  mem : Memory
  V : Vector Byte Config.numRegs
  I : Word
  pc : Word
  stack : Vector Word Config.stackSlots
  depth : Fin (Config.stackSlots + 1)
  disp : Display
  DT : Byte
  ST : Byte
  prevKeys : KeyMask
  status : FaultStatus
  host : HostPort
  deriving DecidableEq, Repr

/-- Why the machine stops with no next state. No instruction does; the block's own faults are next states with the
fault status written (R155). -/
inductive Fault where
  /-- Raised by a STEP or a TICK when no block exists to perform it, after a LOAD that was ProgramTooLarge (R181). Safe. -/
  | noBlock
  deriving DecidableEq, Repr

/-- Why an instruction has no meaning. -/
inductive Refusal where
  /-- Raised by `exec` for an instruction whose meaning is not written, by its mnemonic. Safe. No arm raises it. -/
  | notModelled (mnemonic : String)
  deriving DecidableEq, Repr

/-- The fault status of a running block. -/
def FaultStatus.clear : FaultStatus := ⟨false, 0, 0, 0⟩

/-- The host port of a block for which the host has asked for nothing. -/
def HostPort.idle : HostPort := ⟨0, 0, 0, [], .ok, true⟩

/-- The display with every pixel off. -/
def Display.off : Display := Vector.replicate Config.rows (Vector.replicate Config.cols false)

/-- The block right after a LOAD of an empty image with the default glyphs (R36, R180, R182). -/
def State.reset : State where
  mem := []
  V := Vector.replicate Config.numRegs 0
  I := 0
  pc := BitVec.ofNat 16 Config.loadAddr
  stack := Vector.replicate Config.stackSlots 0
  depth := 0
  disp := Display.off
  DT := 0
  ST := 0
  prevKeys := 0
  status := FaultStatus.clear
  host := HostPort.idle

end Sys2Proof.Machine
end

