-- ==== Sys2Proof/Machine/Memory.lean ====
section
/-! DEFINITION. Memory as a canonical list of cells: what an unlisted address reads as, reading and writing one byte,
runs of bytes, the range check, and memory as LOAD leaves it (20_memory.md, 70_reset_and_hazards.md rules R180, R183). -/

namespace Sys2Proof.Machine

/-- The default `FONT` (R183), sixteen glyphs of five bytes. It is the spec's own table from general knowledge
(notes/assumptions/5.md): LOAD takes `FONT` as an argument. -/
def Memory.defaultFont : List Byte :=
  [0xF0, 0x90, 0x90, 0x90, 0xF0] ++ [0x20, 0x60, 0x20, 0x20, 0x70] ++
  [0xF0, 0x10, 0xF0, 0x80, 0xF0] ++ [0xF0, 0x10, 0xF0, 0x10, 0xF0] ++
  [0x90, 0x90, 0xF0, 0x10, 0x10] ++ [0xF0, 0x80, 0xF0, 0x10, 0xF0] ++
  [0xF0, 0x80, 0xF0, 0x90, 0xF0] ++ [0xF0, 0x10, 0x20, 0x40, 0x40] ++
  [0xF0, 0x90, 0xF0, 0x90, 0xF0] ++ [0xF0, 0x90, 0xF0, 0x10, 0xF0] ++
  [0xF0, 0x90, 0xF0, 0x90, 0x90] ++ [0xE0, 0x90, 0xE0, 0x90, 0xE0] ++
  [0xF0, 0x80, 0x80, 0x80, 0xF0] ++ [0xE0, 0x90, 0x90, 0x90, 0xE0] ++
  [0xF0, 0x80, 0xF0, 0x80, 0xF0] ++ [0xF0, 0x80, 0xF0, 0x80, 0x80]

/-- What an address reads as when no cell lists it: the glyph byte at 0x000-0x04F, zero elsewhere (R36). -/
def Memory.background (a : Nat) : Byte := Memory.defaultFont.getD a 0

/-- `MemRead(a, 1)` (R13). -/
def Memory.read : Memory → Nat → Byte
  | [], a => Memory.background a
  | (k, b) :: rest, a => if k = a then b else Memory.read rest a

/-- A cell, unless it says what an unlisted address says. -/
def Memory.cell (a : Nat) (b : Byte) : Memory := if b = Memory.background a then [] else [(a, b)]

/-- `MemWrite(a, 1, b)` (R13), keeping the canonical form. -/
def Memory.write : Memory → Nat → Byte → Memory
  | [], a, b => Memory.cell a b
  | (k, c) :: rest, a, b =>
    if a < k then Memory.cell a b ++ (k, c) :: rest
    else if a = k then Memory.cell a b ++ rest
    else (k, c) :: Memory.write rest a b

/-- Write a run of bytes upward from an address, one `MemWrite` after another. -/
def Memory.writeBytes : Memory → Nat → List Byte → Memory
  | m, _, [] => m
  | m, a, b :: bs => Memory.writeBytes (Memory.write m a b) (a + 1) bs

/-- The cells of a run of bytes laid out upward from an address over unlisted memory. -/
def Memory.layout : Nat → List Byte → Memory
  | _, [] => []
  | a, b :: bs => Memory.cell a b ++ Memory.layout (a + 1) bs

/-- Memory after LOAD (R180): `FONT` from 0x000, the image from 0x200, every other byte 0x00. -/
def Memory.ofLoad (font : Vector Byte Config.fontSize) (image : List Byte) : Memory :=
  Memory.layout 0 font.toList ++ Memory.layout Config.loadAddr image

/-- The cells' addresses rise strictly from above `lo`, lie within memory, and each cell says something its unlisted
address would not. -/
def Memory.wfFrom : Nat → Memory → Bool
  | _, [] => true
  | lo, (k, b) :: rest =>
    decide (lo ≤ k) && decide (k < Config.memSize) && !decide (b = Memory.background k) && Memory.wfFrom (k + 1) rest

/-- Memory is in its canonical form. -/
def Memory.wf (m : Memory) : Bool := Memory.wfFrom 0 m

/-- The range check of R44: `len` bytes from `a` stay within 0x000-0xFFF, without wrap-around. No byte, no check. -/
def accessLegal (a len : Nat) : Bool := decide (len = 0) || decide (a + len - 1 ≤ Config.lastAddr)

end Sys2Proof.Machine
end

