-- ==== Sys2Proof/Machine/Operands.lean ====
section
/-! DEFINITION. The operand forms (30_encoding.md rule R63): a general register read and written, a 12-bit address
zero-extended, a register scaled for a glyph, the digits of a register, and the run `V0..Vx`. -/

namespace Sys2Proof.Machine

/-- `V[x]` (R12). -/
def State.reg (s : State) (x : RegIdx) : Byte := s.V[x.val]

/-- `V[x] <- b` (R12). -/
def State.setReg (s : State) (x : RegIdx) (b : Byte) : State := { s with V := s.V.set x.val b }

/-- `zext_16(nnn)` (R63). -/
def addr16 (nnn : BitVec 12) : Word := nnn.setWidth 16

/-- `V0..Vx`, inclusive of `x` (R124). -/
def State.regsThrough (s : State) (x : RegIdx) : List Byte := s.V.toList.take (x.val + 1)

/-- The registers after each `V[i]` with `i <= x` is given the byte `f i` (R125). -/
def State.setRegsThrough (s : State) (x : RegIdx) (f : Nat → Byte) : State :=
  { s with V := Vector.ofFn fun r : RegIdx => if r ≤ x then f r.val else s.V[r.val] }

/-- The decimal digits of a byte, hundreds, tens, ones (R123). -/
def decimalDigits (v : Byte) : List Byte :=
  [BitVec.ofNat 8 (v.toNat / 100), BitVec.ofNat 8 (v.toNat / 10 % 10), BitVec.ofNat 8 (v.toNat % 10)]

/-- The address of the glyph of a digit, `v * 5`, with no masking (R53, R122). -/
def glyphAddr (v : Byte) : Word := BitVec.ofNat 16 (v.toNat * Config.glyphSize)

end Sys2Proof.Machine
end

