-- ==== Sys2Proof/Machine/Ops.lean ====
section
/-! DEFINITION. The operations the meanings share: ending an instruction (40_step_cycle.md rules R80, R86), taking a
fault (60_exceptions.md rule R155), the call stack (10_state.md rule R27), the key-release edge detector (R165, R166)
and the fetch (R82). There is no return from a fault (R156). -/

namespace Sys2Proof.Machine

/-- What `exec` and `step` answer. -/
abbrev Result := Host.Outcome State Fault Refusal

/-! ### Ending an instruction -/

/-- The last two lines of R80's STEP: the pressed set becomes the previous one, and the pc moves. -/
def State.commit (s : State) (target : Word) : State := { s with pc := target, prevKeys := s.host.keys }

/-- `NEXT` (R86). -/
def State.next (s : State) : State := s.commit (s.pc + 2)

/-- `SKIP` (R86). -/
def State.skip (s : State) : State := s.commit (s.pc + 4)

/-- `SET(t)` (R86). -/
def State.jump (s : State) (t : Word) : State := s.commit t

/-- `STAY` (R86, R87). -/
def State.stay (s : State) : State := s.commit s.pc

/-- `SKIP` if the condition holds, else `NEXT`. -/
def State.skipIf (s : State) (c : Bool) : State := if c then s.skip else s.next

/-! ### Taking a fault -/

/-- The code of a fault kind (R150). -/
def FaultKind.code : FaultKind → BitVec 4
  | .invalidOpcode => 1
  | .callStackOverflow => 2
  | .callStackUnderflow => 3
  | .memoryOutOfRange => 5
  | .pcOutOfRange => 6
  | .indexOverflow => 7

/-- `raise F(word = w, addr = pc)` (R14, R155): the fault status is written and the typed result goes to the host;
nothing else of the block changes. -/
def State.raise (s : State) (kind : FaultKind) (w : Word) : State :=
  { s with
    status := { halted := true, fcode := kind.code, fword := w, fpc := s.pc }
    host := { s.host with result := .fault kind w s.pc } }

/-- Raise the fault of a decoded instruction. Its word is the one it was decoded from: decoding is exact (R64), so
that is its encoding. -/
def State.raiseIn (s : State) (kind : FaultKind) (i : Instr) : State := s.raise kind (encode i)

/-! ### The call stack -/

/-- Push a return address; `none` when all 16 slots are occupied (R92). -/
def State.push (s : State) (w : Word) : Option State :=
  if h : s.depth.val < Config.stackSlots then
    some { s with stack := s.stack.set s.depth.val w, depth := ⟨s.depth.val + 1, Nat.succ_lt_succ h⟩ }
  else none

/-- The top of the stack and the state with it popped; `none` when the stack is empty (R90). The slot keeps its value. -/
def State.pop (s : State) : Option (Word × State) :=
  if h : 0 < s.depth.val then
    some (s.stack[s.depth.val - 1]'(by have := s.depth.isLt; omega),
      { s with depth := ⟨s.depth.val - 1, by have := s.depth.isLt; omega⟩ })
  else none

/-! ### The key latch -/

/-- Key `v` is in the pressed set: codes 16 to 255 never are (R143, R144, D18). -/
def keyPressed (keys : KeyMask) (v : Byte) : Bool := decide (v.toNat < Config.numKeys) && keys.getLsbD v.toNat

/-- The numerically smallest key of a mask (0 for the empty one). -/
def lowestKey (m : KeyMask) : Key := ((List.finRange Config.numKeys).find? fun k => m.getLsbD k.val).getD 0

/-- `RELEASE_CHOICE` (R166): the one key of a mask that holds one key; of several, the implementation's free choice
among them. -/
def releaseChoice (m : KeyMask) : Key :=
  if m = 1#16 <<< (lowestKey m).val then lowestKey m
  else if m.getLsbD (Config.releasePick m).val then Config.releasePick m
  else lowestKey m

/-- `EdgeDetect(prevKeys, keys)` (R165): the keys pressed in the last STEP and not now, and which is reported. -/
def edgeDetect (prevKeys keys : KeyMask) : Option Key :=
  if prevKeys &&& ~~~keys = 0 then none else some (releaseChoice (prevKeys &&& ~~~keys))

/-- `released` of the STEP under way (R80, R165). -/
def State.released (s : State) : Option Key := edgeDetect s.prevKeys s.host.keys

/-! ### The fetch -/

/-- `Fetch(pc)` (R82): the big-endian word at pc and pc+1; `none` when pc > 0xFFE. -/
def State.fetch (s : State) : Option Word :=
  if s.pc.toNat > Config.lastAddr - 1 then none
  else some (wordOfBytes (Memory.read s.mem s.pc.toNat) (Memory.read s.mem (s.pc.toNat + 1)))

/-- Lay an instruction word out in memory, big-endian (R42). -/
def Memory.storeWord (m : Memory) (a : Nat) (w : Word) : Memory := Memory.writeBytes m a [wordHi w, wordLo w]

end Sys2Proof.Machine
end

