-- ==== Sys2Proof/Machine/Alu.lean ====
section
/-! DEFINITION. The register file and the ALU (42_alu.md). -/

namespace Sys2Proof.Machine

/-- `6xkk` LD Vx, kk (R100). -/
def execLdImm (x : RegIdx) (kk : Byte) (s : State) : Result := .next (s.setReg x kk).next

/-- `7xkk` ADD Vx, kk (R101): modulo 256, no flag. -/
def execAddImm (x : RegIdx) (kk : Byte) (s : State) : Result := .next (s.setReg x (s.reg x + kk)).next

/-- `8xy0` LD Vx, Vy (R102). -/
def execLdReg (x y : RegIdx) (s : State) : Result := .next (s.setReg x (s.reg y)).next

/-- `8xy2` AND Vx, Vy (R103): VF is not cleared. -/
def execAndReg (x y : RegIdx) (s : State) : Result := .next (s.setReg x (s.reg x &&& s.reg y)).next

/-- `8xy3` XOR Vx, Vy (R104). -/
def execXorReg (x y : RegIdx) (s : State) : Result := .next (s.setReg x (s.reg x ^^^ s.reg y)).next

/-- The write order of 8xy4 and 8xy5 (R105): the flag into VF first, then the result into Vx. -/
def State.setFlagThenReg (s : State) (x : RegIdx) (flag result : Byte) : State := (s.setReg VF flag).setReg x result

/-- `8xy4` ADD Vx, Vy (R105, R106). -/
def execAddReg (x y : RegIdx) (s : State) : Result :=
  .next (s.setFlagThenReg x (carryFlag (s.reg x) (s.reg y)) (s.reg x + s.reg y)).next

/-- `8xy5` SUB Vx, Vy (R105, R107). -/
def execSubReg (x y : RegIdx) (s : State) : Result :=
  .next (s.setFlagThenReg x (noBorrowFlag (s.reg x) (s.reg y)) (s.reg x - s.reg y)).next

/-- `Cxkk` RND Vx, kk (R108). -/
def execRnd (x : RegIdx) (kk : Byte) (s : State) : Result := .next (s.setReg x (s.host.rnd &&& kk)).next

end Sys2Proof.Machine
end

