-- ==== Sys2Proof/Machine/Control.lean ====
section
/-! DEFINITION. Control flow and the call stack (41_control_flow.md). -/

namespace Sys2Proof.Machine

/-- `00EE` RET (R90). -/
def execRet (s : State) : Result :=
  match s.pop with
  | none => .next (s.raiseIn .callStackUnderflow .ret)
  | some (t, s') => .next (s'.jump t)

/-- `1nnn` JP nnn (R91). -/
def execJp (nnn : BitVec 12) (s : State) : Result := .next (s.jump (addr16 nnn))

/-- `2nnn` CALL nnn (R92). -/
def execCall (nnn : BitVec 12) (s : State) : Result :=
  match s.push (s.pc + 2) with
  | none => .next (s.raiseIn .callStackOverflow (.call nnn))
  | some s' => .next (s'.jump (addr16 nnn))

/-- `3xkk` SE Vx, kk (R93). -/
def execSeImm (x : RegIdx) (kk : Byte) (s : State) : Result := .next (s.skipIf (s.reg x == kk))

/-- `4xkk` SNE Vx, kk (R94). -/
def execSneImm (x : RegIdx) (kk : Byte) (s : State) : Result := .next (s.skipIf (s.reg x != kk))

/-- `5xy0` SE Vx, Vy (R95). -/
def execSeReg (x y : RegIdx) (s : State) : Result := .next (s.skipIf (s.reg x == s.reg y))

end Sys2Proof.Machine
end

