-- ==== Sys2Proof/Machine/Display.lean ====
section
/-! DEFINITION. The sprite rasterizer (44_display.md): clear, and draw with XOR compositing and per-axis wrap. -/

namespace Sys2Proof.Machine

/-- `row = n mod 32` (R131, R132). -/
def wrapRow (n : Nat) : Fin Config.rows := ⟨n % Config.rows, Nat.mod_lt _ (by decide)⟩

/-- `col = n mod 64` (R131, R132). -/
def wrapCol (n : Nat) : Fin Config.cols := ⟨n % Config.cols, Nat.mod_lt _ (by decide)⟩

/-- `disp[r][c]` (R12). -/
def Display.get (d : Display) (r : Fin Config.rows) (c : Fin Config.cols) : Bool := d[r.val][c.val]

/-- `disp[r][c] <- disp[r][c] ^ 1` (R131). -/
def Display.flip (d : Display) (r : Fin Config.rows) (c : Fin Config.cols) : Display :=
  d.set r.val (d[r.val].set c.val (!d.get r c))

/-- One sprite bit (the body of R131's inner loop): a set bit flips its pixel, and notes a pixel that was on. -/
def drawBit (set : Bool) (r : Fin Config.rows) (c : Fin Config.cols) (p : Display × Bool) : Display × Bool :=
  if set then (p.1.flip r c, p.2 || p.1.get r c) else p

/-- Bit `c` of a sprite row, 0 = leftmost: bit `7 - c` of its byte (R131). -/
def spriteBit (b : Byte) (c : Nat) : Bool := b.getLsbD (7 - c)

/-- One sprite row at row `cy` from column `cx` (R131's loop over `c`). -/
def drawByte (b : Byte) (cx cy : Nat) (p : Display × Bool) : Display × Bool :=
  (List.range 8).foldl (fun p c => drawBit (spriteBit b c) (wrapRow cy) (wrapCol (cx + c)) p) p

/-- `n` sprite rows read upward from `a` (R131's loop over `r`). -/
def drawRows (mem : Memory) (a cx cy n : Nat) (p : Display × Bool) : Display × Bool :=
  (List.range n).foldl (fun p r => drawByte (Memory.read mem (a + r)) cx (cy + r) p) p

/-- `00E0` CLS (R130). -/
def execCls (s : State) : Result := .next { s with disp := Display.off }.next

/-- `Dxyn` DRW Vx, Vy, n (R131): the coordinates are read first and VF is written last. -/
def execDrw (x y : RegIdx) (n : Nat) (s : State) : Result :=
  if accessLegal s.I.toNat n then
    let p := drawRows s.mem s.I.toNat (s.reg x).toNat (s.reg y).toNat n (s.disp, false)
    .next ({ s with disp := p.1 }.setReg VF (collisionFlag p.2)).next
  else .next (s.raiseIn .memoryOutOfRange (.drw x y n))

end Sys2Proof.Machine
end

