-- ==== Sys2Proof/Machine/Index.lean ====
section
/-! DEFINITION. The index register and memory (43_index_memory.md). Every access is checked before the first write
(20_memory.md rule R44), and no access changes `I` (R126). -/

namespace Sys2Proof.Machine

/-- `Annn` LD I, nnn (R120). -/
def execLdI (nnn : BitVec 12) (s : State) : Result := .next { s with I := addr16 nnn }.next

/-- `Fx1E` ADD I, Vx (R121). -/
def execAddI (x : RegIdx) (s : State) : Result :=
  if s.I.toNat + (s.reg x).toNat > 0xFFFF then .next (s.raiseIn .indexOverflow (.addI x))
  else .next { s with I := BitVec.ofNat 16 (s.I.toNat + (s.reg x).toNat) }.next

/-- `Fx29` LD F, Vx (R122). -/
def execLdF (x : RegIdx) (s : State) : Result := .next { s with I := glyphAddr (s.reg x) }.next

/-- Store bytes upward from `I`, or raise for the instruction when they pass 0xFFF (R44). -/
def State.storeAtI (s : State) (i : Instr) (bytes : List Byte) : State :=
  if accessLegal s.I.toNat bytes.length then { s with mem := Memory.writeBytes s.mem s.I.toNat bytes }.next
  else s.raiseIn .memoryOutOfRange i

/-- `Fx33` LD B, Vx (R123). -/
def execLdB (x : RegIdx) (s : State) : Result := .next (s.storeAtI (.ldB x) (decimalDigits (s.reg x)))

/-- `Fx55` LD [I], Vx (R124). -/
def execStoreRegs (x : RegIdx) (s : State) : Result := .next (s.storeAtI (.storeRegs x) (s.regsThrough x))

/-- `Fx65` LD Vx, [I] (R125). -/
def execLoadRegs (x : RegIdx) (s : State) : Result :=
  if accessLegal s.I.toNat (x.val + 1) then
    .next (s.setRegsThrough x fun k => Memory.read s.mem (s.I.toNat + k)).next
  else .next (s.raiseIn .memoryOutOfRange (.loadRegs x))

end Sys2Proof.Machine
end

