-- ==== Sys2Proof/Machine/TimersKeys.lean ====
section
/-! DEFINITION. The timer and key instructions (45_timers_keys.md). -/

namespace Sys2Proof.Machine

/-- `Fx07` LD Vx, DT (R140). -/
def execLdVxDt (x : RegIdx) (s : State) : Result := .next (s.setReg x s.DT).next

/-- `Fx15` LD DT, Vx (R141). -/
def execLdDtVx (x : RegIdx) (s : State) : Result := .next { s with DT := s.reg x }.next

/-- `Fx18` LD ST, Vx (R142). -/
def execLdStVx (x : RegIdx) (s : State) : Result := .next { s with ST := s.reg x }.next

/-- `Ex9E` SKP Vx (R143). -/
def execSkp (x : RegIdx) (s : State) : Result := .next (s.skipIf (keyPressed s.host.keys (s.reg x)))

/-- `ExA1` SKNP Vx (R144). -/
def execSknp (x : RegIdx) (s : State) : Result := .next (s.skipIf (!keyPressed s.host.keys (s.reg x)))

/-- `Fx0A` LD Vx, K (R145): wait for a key release. -/
def execLdVxK (x : RegIdx) (s : State) : Result :=
  match s.released with
  | none => .next s.stay
  | some k => .next (s.setReg x (BitVec.ofNat 8 k.val)).next

end Sys2Proof.Machine
end

