-- ==== Sys2Proof/Machine/Transactions.lean ====
section
/-! DEFINITION. The host's transactions (60_exceptions.md rule R163): STEP (40_step_cycle.md rule R80), TICK (R164),
LOAD (70_reset_and_hazards.md rule R180); and the outputs the host reads between them (R167, R168). -/

namespace Sys2Proof.Machine

/-! ### STEP -/

/-- Present the inputs of a STEP at the host port; its result is Ok unless it raises. -/
def State.present (s : State) (keys : KeyMask) (rnd : Byte) : State :=
  { s with host := { s.host with keys := keys, rnd := rnd, result := .ok } }

/-- Answer Halted and change nothing of the block (R89). -/
def State.answerHalted (s : State) : State := { s with host := { s.host with result := .halted } }

/-- STEP (R80) of a state at whose host port the inputs stand. The checks run in the order of R154. -/
def runStep (s : State) : Result :=
  if s.status.halted then .next s.answerHalted
  else
    match s.fetch with
    | none => .next (s.raise .pcOutOfRange 0)
    | some w =>
      match decodeWord w with
      | none => .next (s.raise .invalidOpcode w)
      | some i => exec i s

/-- STEP(keys, rnd) (R80). -/
def stepTx (keys : KeyMask) (rnd : Byte) (s : State) : Result := runStep (s.present keys rnd)

/-- A STEP whose inputs the host did not queue: the pressed set stands as last presented, and the random byte is a fresh
free draw (notes/assumptions/2.md, 3.md). -/
def freeStep (s : State) : Result :=
  stepTx s.host.keys (Config.rndDraw s.host.draws) { s with host := { s.host with draws := s.host.draws + 1 } }

/-! ### TICK -/

/-- One timer's countdown, floored at zero (R161, R164). -/
def countdown (t : Byte) : Byte := if t.toNat > 0 then t - 1 else 0

/-- TICK (R164). -/
def tick (s : State) : State :=
  if s.status.halted then s.answerHalted
  else { s with DT := countdown s.DT, ST := countdown s.ST, host := { s.host with result := .ok } }

/-! ### LOAD -/

/-- LOAD(image, FONT) (R180): a new block; `none` is ProgramTooLarge (R181). -/
def State.load (font : Vector Byte Config.fontSize) (image : List Byte) : Option State :=
  if image.length > Config.maxImage then none else some { State.reset with mem := Memory.ofLoad font image }

/-- A pending LOAD: the new block takes the old one's place at the host port (notes/assumptions/12.md). One that is
ProgramTooLarge answers so, and no block exists after it (R181, notes/assumptions/9.md): the host may retry (R151). -/
def loadTx (font : Vector Byte Config.fontSize) (image : List Byte) (s : State) : State :=
  match State.load font image with
  | none => { s with host := { s.host with result := .programTooLarge, blockExists := false } }
  | some t => { t with host := { s.host with result := .ok, blockExists := true } }

/-! ### One transaction -/

/-- A transaction that is performed on a block: there must be one. -/
def onBlock (f : State → Result) (s : State) : Result := if s.host.blockExists then f s else .fault .noBlock

/-- Perform one transaction. -/
def performTx (tx : HostTx) (s : State) : Result :=
  match tx with
  | .load font image => .next (loadTx font image s)
  | .step keys rnd => onBlock (stepTx keys rnd) s
  | .tick => onBlock (fun s => .next (tick s)) s

/-- The next transaction: the oldest pending one, or a STEP when none is pending. -/
def nextTx (s : State) : Result :=
  match s.host.pending with
  | [] => onBlock freeStep s
  | tx :: rest => performTx tx { s with host := { s.host with pending := rest } }

/-! ### Outputs -/

/-- `display()` (R167): the grid row by row, element `r * 64 + c` for `disp[r][c]`. -/
def State.display (s : State) : List Bool := s.disp.toList.flatMap fun row => row.toList

/-- `sound_active()` (R168): the sound timer is above zero. -/
def State.soundActive (s : State) : Bool := decide (s.ST.toNat > 0)

/-- The fault status as the host reads it (R167). -/
def State.faultStatus (s : State) : FaultStatus := s.status

end Sys2Proof.Machine
end

