-- ==== Sys2Proof/Machine/Step.lean ====
section
/-! DEFINITION. One step of the machine is one transaction of the host (60_exceptions.md rule R163): the oldest pending
one, else a STEP. -/

namespace Sys2Proof.Machine

/-- One step (`nextTx`). -/
def step (s : State) : Host.Outcome State Fault Refusal := nextTx s

/-- The state whose very next step is a STEP that fetches the first word of `w`: the word is stored at pc, no
transaction is pending, a block exists and runs, and a pc from which nothing can be fetched is put at the load address. -/
def State.withFetchWord (s : State) (nbits w : Nat) : State :=
  let pc := if s.pc.toNat > Config.lastAddr - 1 then BitVec.ofNat 16 Config.loadAddr else s.pc
  { s with
    pc := pc
    mem := Memory.storeWord s.mem pc.toNat (BitVec.ofNat 16 (w % 2 ^ nbits))
    status := if s.status.halted then FaultStatus.clear else s.status
    host := { s.host with pending := [], blockExists := true } }

end Sys2Proof.Machine
end

