-- ==== Sys2Proof/Safety.lean ====
section
/-! DEFINITION. The words claims are written in: the elements of the state (10_state.md rule R20) and what it means that
an element is unchanged, which elements an instruction writes (R37), the state a STEP starts from, and the invariant of
the machine. -/

namespace Sys2Proof.Machine

/-- The elements of the state: R20's table with the registers one by one, and the model's own host port. -/
inductive Element where
  | memory
  | reg (r : RegIdx)
  | index
  | pc
  | stack
  | depth
  | display
  | delayTimer
  | soundTimer
  | latch
  | faultStatus
  | hostPort
  deriving DecidableEq, Repr

/-- The element is the same in two states. Memory is compared byte by byte, the display pixel by pixel. -/
def Element.same : Element → State → State → Prop
  | .memory, s, t => ∀ a, Memory.read t.mem a = Memory.read s.mem a
  | .reg r, s, t => t.reg r = s.reg r
  | .index, s, t => t.I = s.I
  | .pc, s, t => t.pc = s.pc
  | .stack, s, t => t.stack = s.stack
  | .depth, s, t => t.depth = s.depth
  | .display, s, t => ∀ r c, t.disp.get r c = s.disp.get r c
  | .delayTimer, s, t => t.DT = s.DT
  | .soundTimer, s, t => t.ST = s.ST
  | .latch, s, t => t.prevKeys = s.prevKeys
  | .faultStatus, s, t => t.status = s.status
  | .hostPort, s, t => t.host = s.host

/-- Every element but those listed is the same in `t` as in `s`. -/
def State.keepsAllBut (s t : State) (written : List Element) : Prop := ∀ e : Element, e ∉ written → e.same s t

/-- The registers `V0..Vx` (R125). -/
def regsUpTo (x : RegIdx) : List Element := ((List.finRange Config.numRegs).filter (· ≤ x)).map .reg

end Sys2Proof.Machine

namespace Sys2Proof

/-- The "writes" column of R37, with `prevKeys`, which every STEP writes. -/
def Instr.writes : Instr → List Machine.Element
  | .cls => [.display, .pc, .latch]
  | .ret => [.depth, .pc, .latch]
  | .jp _ => [.pc, .latch]
  | .call _ => [.stack, .depth, .pc, .latch]
  | .seImm _ _ => [.pc, .latch]
  | .sneImm _ _ => [.pc, .latch]
  | .seReg _ _ => [.pc, .latch]
  | .ldImm x _ => [.reg x, .pc, .latch]
  | .addImm x _ => [.reg x, .pc, .latch]
  | .ldReg x _ => [.reg x, .pc, .latch]
  | .andReg x _ => [.reg x, .pc, .latch]
  | .xorReg x _ => [.reg x, .pc, .latch]
  | .addReg x _ => [.reg VF, .reg x, .pc, .latch]
  | .subReg x _ => [.reg VF, .reg x, .pc, .latch]
  | .ldI _ => [.index, .pc, .latch]
  | .rnd x _ => [.reg x, .pc, .latch]
  | .drw _ _ _ => [.display, .reg VF, .pc, .latch]
  | .skp _ => [.pc, .latch]
  | .sknp _ => [.pc, .latch]
  | .ldVxDt x => [.reg x, .pc, .latch]
  | .ldVxK x => [.reg x, .pc, .latch]
  | .ldDtVx _ => [.delayTimer, .pc, .latch]
  | .ldStVx _ => [.soundTimer, .pc, .latch]
  | .addI _ => [.index, .pc, .latch]
  | .ldF _ => [.index, .pc, .latch]
  | .ldB _ => [.memory, .pc, .latch]
  | .storeRegs _ => [.memory, .pc, .latch]
  | .loadRegs x => [.pc, .latch] ++ Machine.regsUpTo x

/-- How many bytes the instruction stores, upward from I (R43). -/
def Instr.storeLength : Instr → Nat
  | .cls => 0
  | .ret => 0
  | .jp _ => 0
  | .call _ => 0
  | .seImm _ _ => 0
  | .sneImm _ _ => 0
  | .seReg _ _ => 0
  | .ldImm _ _ => 0
  | .addImm _ _ => 0
  | .ldReg _ _ => 0
  | .andReg _ _ => 0
  | .xorReg _ _ => 0
  | .addReg _ _ => 0
  | .subReg _ _ => 0
  | .ldI _ => 0
  | .rnd _ _ => 0
  | .drw _ _ _ => 0
  | .skp _ => 0
  | .sknp _ => 0
  | .ldVxDt _ => 0
  | .ldVxK _ => 0
  | .ldDtVx _ => 0
  | .ldStVx _ => 0
  | .addI _ => 0
  | .ldF _ => 0
  | .ldB _ => 3
  | .storeRegs x => x.val + 1
  | .loadRegs _ => 0

end Sys2Proof

namespace Sys2Proof.Machine

/-- The block has not faulted. -/
def State.running (s : State) : Prop := s.status.halted = false

/-- The state a STEP starts from, with its inputs at the host port, when the next transaction is a STEP of a block that
exists: one the host has queued, or one with a free random byte when nothing is queued. -/
def State.stepEntry (s : State) : Option State :=
  if s.host.blockExists = false then none else
  match s.host.pending with
  | [] =>
    some ({ s with host := { s.host with draws := s.host.draws + 1 } }.present s.host.keys (Config.rndDraw s.host.draws))
  | .step keys rnd :: rest => some ({ s with host := { s.host with pending := rest } }.present keys rnd)
  | .load _ _ :: _ => none
  | .tick :: _ => none

/-- The two bytes at pc, the lower address first (R42). -/
def State.bytesAtPc (s : State) : List Byte :=
  [Memory.read s.mem s.pc.toNat, Memory.read s.mem (s.pc.toNat + 1)]

/-- A state a safe run passes through: every step keeps it. -/
structure State.Inv (s : State) : Prop where
  /-- Memory is in its canonical form. -/
  memCanonical : s.mem.wf = true
  /-- pc never exceeds 0x1002 (R25). -/
  pcBound : s.pc.toNat ≤ 0x1002
  /-- No slot holds a return address above 0x1000 (R92). -/
  returnBound : ∀ j : Fin Config.stackSlots, s.stack[j.val].toNat ≤ 0x1000
  /-- A running block has an empty fault status (R34, R36). -/
  runningClear : s.status.halted = false → s.status = FaultStatus.clear
  /-- A halted block recorded a code that a STEP can raise, at the pc where it stands (R150, R155). -/
  haltedRecord : s.status.halted = true →
    s.status.fcode ∈ [1#4, 2#4, 3#4, 5#4, 6#4, 7#4] ∧ s.status.fpc = s.pc
  /-- The word it recorded is the word at pc, or 0 where there was none to fetch (R34, R155). -/
  haltedWord : s.status.halted = true →
    s.fetch = some s.status.fword ∨ (s.fetch = none ∧ s.status.fcode = 6#4 ∧ s.status.fword = 0)

end Sys2Proof.Machine
end

