-- ==== Sys2Proof/Certificates/Slice0/Obligations.lean ====
section
/-! DEFINITION. The statements for the provers. Each docstring names the rule or the section of spec/ it formalises; a
clause that rests on a decision of the spec's own (D<n>) or on an entry of the assumption log says so. `s` is a state in
which the instruction stands at `s.pc` and the inputs of its STEP stand at `s.host`; an instruction completes when `exec`
answers a next state whose fault status is that of `s`. -/

open Sys2Proof Sys2Proof.Machine

/-! ### The register file and the ALU (42_alu.md) -/

/-- R100: 6xkk loads the immediate and advances; nothing else changes but the latch. -/
def Obligations.LdImmLoadsItsByte : Prop :=
  ∀ (s : State) (x : RegIdx) (kk : Byte), ∃ t, exec (.ldImm x kk) s = .next t ∧
    t.reg x = kk ∧ t.pc = s.pc + 2 ∧ t.prevKeys = s.host.keys ∧ s.keepsAllBut t [.reg x, .pc, .latch]

/-- R101: 7xkk adds modulo 256; for x other than F, VF is unchanged, and for x = F it receives the sum. -/
def Obligations.AddImmWrapsAndSetsNoFlag : Prop :=
  ∀ (s : State) (x : RegIdx) (kk : Byte), ∃ t, exec (.addImm x kk) s = .next t ∧
    (t.reg x).toNat = ((s.reg x).toNat + kk.toNat) % 256 ∧ (x ≠ VF → t.reg VF = s.reg VF) ∧
    t.pc = s.pc + 2 ∧ t.prevKeys = s.host.keys ∧ s.keepsAllBut t [.reg x, .pc, .latch]

/-- R102: 8xy0 copies a register; no flag. -/
def Obligations.LdRegCopiesVy : Prop :=
  ∀ (s : State) (x y : RegIdx), ∃ t, exec (.ldReg x y) s = .next t ∧
    t.reg x = s.reg y ∧ t.pc = s.pc + 2 ∧ t.prevKeys = s.host.keys ∧ s.keepsAllBut t [.reg x, .pc, .latch]

/-- R103: 8xy2 is the bitwise AND; VF is unchanged unless it is the destination. -/
def Obligations.AndRegIsBitwiseAnd : Prop :=
  ∀ (s : State) (x y : RegIdx), ∃ t, exec (.andReg x y) s = .next t ∧
    (∀ i < 8, (t.reg x).getLsbD i = ((s.reg x).getLsbD i && (s.reg y).getLsbD i)) ∧
    (x ≠ VF → t.reg VF = s.reg VF) ∧
    t.pc = s.pc + 2 ∧ t.prevKeys = s.host.keys ∧ s.keepsAllBut t [.reg x, .pc, .latch]

/-- R104: 8xy3 is the bitwise exclusive OR; VF is unchanged unless it is the destination. -/
def Obligations.XorRegIsBitwiseXor : Prop :=
  ∀ (s : State) (x y : RegIdx), ∃ t, exec (.xorReg x y) s = .next t ∧
    (∀ i < 8, (t.reg x).getLsbD i = ((s.reg x).getLsbD i ^^ (s.reg y).getLsbD i)) ∧
    (x ≠ VF → t.reg VF = s.reg VF) ∧
    t.pc = s.pc + 2 ∧ t.prevKeys = s.host.keys ∧ s.keepsAllBut t [.reg x, .pc, .latch]

/-- R106: 8xy4 adds modulo 256 with the carry in VF, from operands read before any write; for x = F the result stands
(decision D10 of the spec). -/
def Obligations.AddRegSetsSumAndCarry : Prop :=
  ∀ (s : State) (x y : RegIdx), ∃ t, exec (.addReg x y) s = .next t ∧
    (t.reg x).toNat = ((s.reg x).toNat + (s.reg y).toNat) % 256 ∧
    (x ≠ VF → (t.reg VF).toNat = if (s.reg x).toNat + (s.reg y).toNat > 255 then 1 else 0) ∧
    t.pc = s.pc + 2 ∧ t.prevKeys = s.host.keys ∧ s.keepsAllBut t [.reg VF, .reg x, .pc, .latch]

/-- R107: 8xy5 subtracts modulo 256 with VF = 1 exactly when Vx > Vy, strictly, from operands read before any write; for
x = F the result stands (decision D10 of the spec). -/
def Obligations.SubRegSetsDifferenceAndNoBorrow : Prop :=
  ∀ (s : State) (x y : RegIdx), ∃ t, exec (.subReg x y) s = .next t ∧
    ((t.reg x).toNat : Int) = (((s.reg x).toNat : Int) - ((s.reg y).toNat : Int)) % 256 ∧
    (x ≠ VF → (t.reg VF).toNat = if (s.reg x).toNat > (s.reg y).toNat then 1 else 0) ∧
    t.pc = s.pc + 2 ∧ t.prevKeys = s.host.keys ∧ s.keepsAllBut t [.reg VF, .reg x, .pc, .latch]

/-- R108: Cxkk masks the random byte of its STEP, whatever that byte is (decision D24: a free draw). -/
def Obligations.RndMasksTheDrawnByte : Prop :=
  ∀ (s : State) (x : RegIdx) (kk : Byte), ∃ t, exec (.rnd x kk) s = .next t ∧
    (∀ i < 8, (t.reg x).getLsbD i = (s.host.rnd.getLsbD i && kk.getLsbD i)) ∧
    t.pc = s.pc + 2 ∧ t.prevKeys = s.host.keys ∧ s.keepsAllBut t [.reg x, .pc, .latch]

/-! ### Control flow (41_control_flow.md) -/

/-- R93: 3xkk skips when Vx equals the immediate. -/
def Obligations.SeImmSkipsWhenEqual : Prop :=
  ∀ (s : State) (x : RegIdx) (kk : Byte), ∃ t, exec (.seImm x kk) s = .next t ∧
    t.pc = (if s.reg x = kk then s.pc + 4 else s.pc + 2) ∧ t.prevKeys = s.host.keys ∧ s.keepsAllBut t [.pc, .latch]

/-- R94: 4xkk skips when Vx differs from the immediate. -/
def Obligations.SneImmSkipsWhenDifferent : Prop :=
  ∀ (s : State) (x : RegIdx) (kk : Byte), ∃ t, exec (.sneImm x kk) s = .next t ∧
    t.pc = (if s.reg x = kk then s.pc + 2 else s.pc + 4) ∧ t.prevKeys = s.host.keys ∧ s.keepsAllBut t [.pc, .latch]

/-- R95: 5xy0 skips when the registers are equal; x = y always skips. -/
def Obligations.SeRegSkipsWhenRegistersEqual : Prop :=
  ∀ (s : State) (x y : RegIdx), ∃ t, exec (.seReg x y) s = .next t ∧
    t.pc = (if s.reg x = s.reg y then s.pc + 4 else s.pc + 2) ∧ (x = y → t.pc = s.pc + 4) ∧
    t.prevKeys = s.host.keys ∧ s.keepsAllBut t [.pc, .latch]

/-- R91: 1nnn sets pc to the zero-extended address. -/
def Obligations.JpSetsPc : Prop :=
  ∀ (s : State) (nnn : BitVec 12), ∃ t, exec (.jp nnn) s = .next t ∧
    t.pc.toNat = nnn.toNat ∧ t.prevKeys = s.host.keys ∧ s.keepsAllBut t [.pc, .latch]

/-- R92. A stack that is not full: pc + 2 goes into the slot at `depth`, `depth` grows by one, pc becomes nnn, and no other
slot changes. A full stack: CallStackOverflow (code 2) with the word and the pc recorded, and nothing else changed; what
is recorded and left unchanged there is the spec's decision D15, D26. -/
def Obligations.CallPushesOrOverflows : Prop :=
  ∀ (s : State) (nnn : BitVec 12),
    (s.depth.val < 16 → ∃ t, exec (.call nnn) s = .next t ∧
      (∀ j : Fin Config.stackSlots, t.stack[j.val] = if j.val = s.depth.val then s.pc + 2 else s.stack[j.val]) ∧
      t.depth.val = s.depth.val + 1 ∧ t.pc.toNat = nnn.toNat ∧ t.prevKeys = s.host.keys ∧
      s.keepsAllBut t [.stack, .depth, .pc, .latch]) ∧
    (s.depth.val = 16 → ∃ t, exec (.call nnn) s = .next t ∧
      t.status = { halted := true, fcode := 2, fword := encode (.call nnn), fpc := s.pc } ∧
      t.host = { s.host with result := .fault .callStackOverflow (encode (.call nnn)) s.pc } ∧
      s.keepsAllBut t [.faultStatus, .hostPort])

/-- R90. A stack that is not empty: pc becomes the popped address as it is, `depth` shrinks by one, every slot keeps its
value. An empty stack: CallStackUnderflow (code 3) with the word 0x00EE and the pc recorded, and nothing else changed;
what is recorded and left unchanged there is the spec's decision D15, D26. -/
def Obligations.RetPopsOrUnderflows : Prop :=
  ∀ (s : State),
    (∀ j : Fin Config.stackSlots, s.depth.val = j.val + 1 → ∃ t, exec .ret s = .next t ∧
      t.pc = s.stack[j.val] ∧ t.depth.val = j.val ∧ t.prevKeys = s.host.keys ∧
      s.keepsAllBut t [.depth, .pc, .latch]) ∧
    (s.depth.val = 0 → ∃ t, exec .ret s = .next t ∧
      t.status = { halted := true, fcode := 3, fword := 0x00EE, fpc := s.pc } ∧
      t.host = { s.host with result := .fault .callStackUnderflow 0x00EE s.pc } ∧
      s.keepsAllBut t [.faultStatus, .hostPort])

/-- R90 with R92: a call and then a return resume at the word after the call, with the stack as deep as before, whatever
state of the latch and the registers stands between them. -/
def Obligations.ReturnResumesAfterCall : Prop :=
  ∀ (s t t' : State) (nnn : BitVec 12), s.depth.val < 16 → exec (.call nnn) s = .next t →
    t'.stack = t.stack → t'.depth = t.depth → ∃ u, exec .ret t' = .next u ∧
      u.pc = s.pc + 2 ∧ u.depth = s.depth ∧ u.status = t'.status ∧
      ∀ j : Fin Config.stackSlots, j.val < s.depth.val → u.stack[j.val] = s.stack[j.val]

/-! ### The index register and memory (43_index_memory.md, 20_memory.md) -/

/-- R120: Annn sets I to the zero-extended address. -/
def Obligations.LdISetsIndex : Prop :=
  ∀ (s : State) (nnn : BitVec 12), ∃ t, exec (.ldI nnn) s = .next t ∧
    t.I.toNat = nnn.toNat ∧ t.pc = s.pc + 2 ∧ t.prevKeys = s.host.keys ∧ s.keepsAllBut t [.index, .pc, .latch]

/-- R121: Fx1E adds without a mask when the sum fits 16 bits; else IndexOverflow (code 7; decision D13 of the spec), with
the word and the pc recorded, and nothing else changed; what is recorded and left unchanged there is R155 with decisions
D15, D26 of the spec (assumption log 8). VF is written in neither case. -/
def Obligations.AddISumsOrOverflows : Prop :=
  ∀ (s : State) (x : RegIdx),
    (s.I.toNat + (s.reg x).toNat ≤ 0xFFFF → ∃ t, exec (.addI x) s = .next t ∧
      t.I.toNat = s.I.toNat + (s.reg x).toNat ∧ t.pc = s.pc + 2 ∧ t.prevKeys = s.host.keys ∧
      s.keepsAllBut t [.index, .pc, .latch]) ∧
    (s.I.toNat + (s.reg x).toNat > 0xFFFF → ∃ t, exec (.addI x) s = .next t ∧
      t.status = { halted := true, fcode := 7, fword := encode (.addI x), fpc := s.pc } ∧
      t.host = { s.host with result := .fault .indexOverflow (encode (.addI x)) s.pc } ∧
      s.keepsAllBut t [.faultStatus, .hostPort])

/-- R122: Fx29 sets I to five times Vx, with no mask. -/
def Obligations.LdFPointsAtGlyph : Prop :=
  ∀ (s : State) (x : RegIdx), ∃ t, exec (.ldF x) s = .next t ∧
    t.I.toNat = (s.reg x).toNat * 5 ∧ t.pc = s.pc + 2 ∧ t.prevKeys = s.host.keys ∧
    s.keepsAllBut t [.index, .pc, .latch]

/-- R123: Fx33 stores the hundreds, tens and ones of Vx at I, I+1, I+2 when they are within memory, and no other byte. -/
def Obligations.LdBStoresDecimalDigits : Prop :=
  ∀ (s : State) (x : RegIdx), s.mem.wf = true → s.I.toNat + 2 ≤ 0xFFF → ∃ t, exec (.ldB x) s = .next t ∧
    (Memory.read t.mem s.I.toNat).toNat = (s.reg x).toNat / 100 ∧
    (Memory.read t.mem (s.I.toNat + 1)).toNat = (s.reg x).toNat / 10 % 10 ∧
    (Memory.read t.mem (s.I.toNat + 2)).toNat = (s.reg x).toNat % 10 ∧
    (∀ a, a < s.I.toNat ∨ s.I.toNat + 3 ≤ a → Memory.read t.mem a = Memory.read s.mem a) ∧
    t.pc = s.pc + 2 ∧ t.prevKeys = s.host.keys ∧ s.keepsAllBut t [.memory, .pc, .latch]

/-- R124: Fx55 stores V0..Vx at I..I+x when they are within memory, and no other byte; I is unchanged (decision D16 of the
spec). -/
def Obligations.StoreRegsStoresTheRun : Prop :=
  ∀ (s : State) (x : RegIdx), s.mem.wf = true → s.I.toNat + x.val ≤ 0xFFF → ∃ t, exec (.storeRegs x) s = .next t ∧
    (∀ r : RegIdx, r ≤ x → Memory.read t.mem (s.I.toNat + r.val) = s.reg r) ∧
    (∀ a, a < s.I.toNat ∨ s.I.toNat + x.val < a → Memory.read t.mem a = Memory.read s.mem a) ∧
    t.pc = s.pc + 2 ∧ t.prevKeys = s.host.keys ∧ s.keepsAllBut t [.memory, .pc, .latch]

/-- R125: Fx65 loads V0..Vx from I..I+x when they are within memory; the registers above Vx, I and memory are unchanged
(decision D16 of the spec). -/
def Obligations.LoadRegsLoadsTheRun : Prop :=
  ∀ (s : State) (x : RegIdx), s.I.toNat + x.val ≤ 0xFFF → ∃ t, exec (.loadRegs x) s = .next t ∧
    (∀ r : RegIdx, r ≤ x → t.reg r = Memory.read s.mem (s.I.toNat + r.val)) ∧
    (∀ r : RegIdx, x < r → t.reg r = s.reg r) ∧
    t.pc = s.pc + 2 ∧ t.prevKeys = s.host.keys ∧ s.keepsAllBut t ([.pc, .latch] ++ regsUpTo x)

/-- 20_memory.md (decision D11 of the spec): Dxyn, Fx33, Fx55 and Fx65 with an access past 0xFFF raise MemoryOutOfRange
(code 5) before any write; what is recorded and left unchanged is R155 with decisions D15, D26 of the spec (assumption
log 8). -/
def Obligations.AccessPastMemoryFaults : Prop :=
  ∀ (s : State) (i : Instr) (len : Nat),
    ((∃ x y, i = .drw x y len) ∨ (∃ x, i = .ldB x ∧ len = 3) ∨ (∃ x : RegIdx, i = .storeRegs x ∧ len = x.val + 1) ∨
      (∃ x : RegIdx, i = .loadRegs x ∧ len = x.val + 1)) →
    0 < len → s.I.toNat + len - 1 > 0xFFF → ∃ t, exec i s = .next t ∧
      t.status = { halted := true, fcode := 5, fword := encode i, fpc := s.pc } ∧
      t.host = { s.host with result := .fault .memoryOutOfRange (encode i) s.pc } ∧
      s.keepsAllBut t [.faultStatus, .hostPort]

/-- 20_memory.md R50 (derived there): the word a later STEP fetches at bytes that Fx55 stored is made of the registers
stored. -/
def Obligations.FetchSeesStoredBytes : Prop :=
  ∀ (s t u : State) (x r r' : RegIdx), s.mem.wf = true → s.I.toNat + x.val ≤ 0xFFF → exec (.storeRegs x) s = .next t →
    r.val + 1 = r'.val → r' ≤ x → u.mem = t.mem → u.pc.toNat = s.I.toNat + r.val →
    ∃ w, u.fetch = some w ∧ w.toNat = (s.reg r).toNat * 256 + (s.reg r').toNat

/-! ### The display (44_display.md) -/

/-- R130: 00E0 turns every pixel off; VF is not written. -/
def Obligations.ClsTurnsEveryPixelOff : Prop :=
  ∀ (s : State), ∃ t, exec .cls s = .next t ∧
    (∀ r c, t.disp.get r c = false) ∧ t.pc = s.pc + 2 ∧ t.prevKeys = s.host.keys ∧
    s.keepsAllBut t [.display, .pc, .latch]

/-- R131 and R132: the pixel under bit c of sprite row k, at row (Vy + k) mod 32 and column (Vx + c) mod 64, is XORed with
that bit; no other pixel changes; VF is 1 when a set bit met a pixel that was on, else 0. The coordinates are the old
registers, VF among them, and n = 0 draws nothing (decision D19 of the spec). -/
def Obligations.DrwXorsTheSpritePerAxis : Prop :=
  ∀ (s : State) (x y : RegIdx) (n : Nat), n ≤ 15 → (n = 0 ∨ s.I.toNat + n - 1 ≤ 0xFFF) →
    ∃ t, exec (.drw x y n) s = .next t ∧
      (∀ k < n, ∀ j < 8, ∀ (r : Fin Config.rows) (c : Fin Config.cols),
        r.val = ((s.reg y).toNat + k) % 32 → c.val = ((s.reg x).toNat + j) % 64 →
        t.disp.get r c = (s.disp.get r c ^^ (Memory.read s.mem (s.I.toNat + k)).getLsbD (7 - j))) ∧
      (∀ (r : Fin Config.rows) (c : Fin Config.cols),
        (∀ k < n, ∀ j < 8, ¬(r.val = ((s.reg y).toNat + k) % 32 ∧ c.val = ((s.reg x).toNat + j) % 64)) →
        t.disp.get r c = s.disp.get r c) ∧
      (t.reg VF = 1 ∨ t.reg VF = 0) ∧
      (t.reg VF = 1 ↔ ∃ (r : Fin Config.rows) (c : Fin Config.cols), s.disp.get r c = true ∧ t.disp.get r c = false) ∧
      t.pc = s.pc + 2 ∧ t.prevKeys = s.host.keys ∧ s.keepsAllBut t [.display, .reg VF, .pc, .latch]

/-- R133 (derived there): drawing the same sprite twice, with the coordinate registers unchanged between, restores every
pixel; the second VF is 1 exactly when some set sprite bit's pixel was off before the first draw. -/
def Obligations.DoubleDrawRestoresTheDisplay : Prop :=
  ∀ (s t : State) (x y : RegIdx) (n : Nat), n ≤ 15 → (n = 0 ∨ s.I.toNat + n - 1 ≤ 0xFFF) →
    exec (.drw x y n) s = .next t → t.reg x = s.reg x → t.reg y = s.reg y →
    ∃ u, exec (.drw x y n) t = .next u ∧ (∀ r c, u.disp.get r c = s.disp.get r c) ∧
      (u.reg VF = 1 ↔ ∃ k < n, ∃ j < 8, (Memory.read s.mem (s.I.toNat + k)).getLsbD (7 - j) = true ∧
        ∃ (r : Fin Config.rows) (c : Fin Config.cols), r.val = ((s.reg y).toNat + k) % 32 ∧
          c.val = ((s.reg x).toNat + j) % 64 ∧ s.disp.get r c = false) ∧
      (u.reg VF = 1 ∨ u.reg VF = 0)

/-- R167: the display the host reads has element r * 64 + c for the pixel at row r, column c, and 2048 elements. -/
def Obligations.DisplayOutputIsRowMajor : Prop :=
  ∀ (s : State), s.display.length = 2048 ∧
    ∀ (r : Fin Config.rows) (c : Fin Config.cols), s.display[r.val * 64 + c.val]? = some (s.disp.get r c)

/-! ### Timers and keys (45_timers_keys.md) -/

/-- R140: Fx07 reads the delay timer. -/
def Obligations.LdVxDtReadsDelayTimer : Prop :=
  ∀ (s : State) (x : RegIdx), ∃ t, exec (.ldVxDt x) s = .next t ∧
    t.reg x = s.DT ∧ t.pc = s.pc + 2 ∧ t.prevKeys = s.host.keys ∧ s.keepsAllBut t [.reg x, .pc, .latch]

/-- R141: Fx15 sets the delay timer. -/
def Obligations.LdDtVxSetsDelayTimer : Prop :=
  ∀ (s : State) (x : RegIdx), ∃ t, exec (.ldDtVx x) s = .next t ∧
    t.DT = s.reg x ∧ t.pc = s.pc + 2 ∧ t.prevKeys = s.host.keys ∧ s.keepsAllBut t [.delayTimer, .pc, .latch]

/-- R142 with R168: Fx18 sets the sound timer, and sound is active at once exactly when Vx > 0. -/
def Obligations.LdStVxSetsSoundTimer : Prop :=
  ∀ (s : State) (x : RegIdx), ∃ t, exec (.ldStVx x) s = .next t ∧
    t.ST = s.reg x ∧ (t.soundActive = true ↔ (s.reg x).toNat > 0) ∧
    t.pc = s.pc + 2 ∧ t.prevKeys = s.host.keys ∧ s.keepsAllBut t [.soundTimer, .pc, .latch]

/-- R143: Ex9E skips when Vx is 0 to 15 and that key is in the pressed set of this STEP; a Vx of 16 or more never skips
(decision D18 of the spec). -/
def Obligations.SkpSkipsWhenKeyPressed : Prop :=
  ∀ (s : State) (x : RegIdx), ∃ t, exec (.skp x) s = .next t ∧
    t.pc = (if (s.reg x).toNat ≤ 15 ∧ s.host.keys.getLsbD (s.reg x).toNat = true then s.pc + 4 else s.pc + 2) ∧
    t.prevKeys = s.host.keys ∧ s.keepsAllBut t [.pc, .latch]

/-- R144: ExA1 skips exactly when Ex9E would not; a Vx of 16 or more always skips (decision D18 of the spec). -/
def Obligations.SknpSkipsWhenKeyNotPressed : Prop :=
  ∀ (s : State) (x : RegIdx), ∃ t, exec (.sknp x) s = .next t ∧
    t.pc = (if (s.reg x).toNat ≤ 15 ∧ s.host.keys.getLsbD (s.reg x).toNat = true then s.pc + 2 else s.pc + 4) ∧
    t.prevKeys = s.host.keys ∧ s.keepsAllBut t [.pc, .latch]

/-- R145 with R165 and R166: Fx0A stays, writing only the latch, when no key is released; else Vx receives a released key
and pc advances. The key is the one the edge detector reports in this STEP; which it reports, of several, is the
implementation's free choice (assumption log 4). That the detector compares the pressed sets of two consecutive STEPs is
decision D17 of the spec. -/
def Obligations.LdVxKWaitsForARelease : Prop :=
  ∀ (s : State) (x : RegIdx),
    ((∀ k < 16, s.prevKeys.getLsbD k = true → s.host.keys.getLsbD k = true) → ∃ t, exec (.ldVxK x) s = .next t ∧
      t.prevKeys = s.host.keys ∧ s.keepsAllBut t [.latch]) ∧
    (∀ k < 16, s.prevKeys.getLsbD k = true → s.host.keys.getLsbD k = false → ∃ t, exec (.ldVxK x) s = .next t ∧
      ∃ k' < 16, s.prevKeys.getLsbD k' = true ∧ s.host.keys.getLsbD k' = false ∧ (t.reg x).toNat = k' ∧
        t.pc = s.pc + 2 ∧ t.prevKeys = s.host.keys ∧ s.keepsAllBut t [.reg x, .pc, .latch]) ∧
    (edgeDetect s.prevKeys s.host.keys = none → ∃ t, exec (.ldVxK x) s = .next t ∧ t.prevKeys = s.host.keys ∧
      s.keepsAllBut t [.latch]) ∧
    (∀ k : Key, edgeDetect s.prevKeys s.host.keys = some k → ∃ t, exec (.ldVxK x) s = .next t ∧
      (t.reg x).toNat = k.val ∧ t.pc = s.pc + 2 ∧ t.prevKeys = s.host.keys ∧
      s.keepsAllBut t [.reg x, .pc, .latch])

/-- R165 and R166 (decision D17 of the spec): the detector reports nothing when no key was released, else one of the
released keys, and THE released key when there is only one. -/
def Obligations.EdgeDetectorReportsAReleasedKey : Prop :=
  ∀ (prevKeys keys : KeyMask),
    (edgeDetect prevKeys keys = none ↔ ∀ k < 16, prevKeys.getLsbD k = true → keys.getLsbD k = true) ∧
    (∀ k : Key, edgeDetect prevKeys keys = some k →
      prevKeys.getLsbD k.val = true ∧ keys.getLsbD k.val = false) ∧
    (∀ k : Key, prevKeys.getLsbD k.val = true → keys.getLsbD k.val = false →
      (∀ k' < 16, prevKeys.getLsbD k' = true → keys.getLsbD k' = false → k' = k.val) →
      edgeDetect prevKeys keys = some k)

/-! ### Faults (60_exceptions.md) -/

/-- R153 (derived there): what a decoded instruction can raise, and when; every other instruction raises nothing. -/
def Obligations.EachInstructionRaisesOnlyItsFault : Prop :=
  ∀ (i : Instr) (s t : State), s.running → exec i s = .next t → ¬t.running →
    match i with
    | .ret => t.status.fcode = 3 ∧ s.depth.val = 0
    | .call _ => t.status.fcode = 2 ∧ s.depth.val = 16
    | .drw _ _ n => t.status.fcode = 5 ∧ 0 < n ∧ s.I.toNat + n - 1 > 0xFFF
    | .ldB _ => t.status.fcode = 5 ∧ s.I.toNat + 2 > 0xFFF
    | .storeRegs x => t.status.fcode = 5 ∧ s.I.toNat + x.val > 0xFFF
    | .loadRegs x => t.status.fcode = 5 ∧ s.I.toNat + x.val > 0xFFF
    | .addI x => t.status.fcode = 7 ∧ s.I.toNat + (s.reg x).toNat > 0xFFFF
    | _ => False

/-- R152 and R155 (decision D15 of the spec): a transaction that takes a running block to a halted one is a STEP, and it
changes the fault status only: halted, the pc of the STEP, and the word at pc (0 when none was fetched). -/
def Obligations.FaultsArePrecise : Prop :=
  ∀ (s t : State), s.running → step s = .next t → ¬t.running →
    (∃ u, s.stepEntry = some u) ∧ t.status.halted = true ∧ t.status.fpc = s.pc ∧
    (s.fetch = some t.status.fword ∨ (s.pc.toNat > 0xFFE ∧ t.status.fword = 0 ∧ t.status.fcode = 6)) ∧
    s.keepsAllBut t [.faultStatus, .hostPort]

/-- R89 (decision D15 of the spec): every STEP and TICK of a halted block answers Halted and changes no state of the
block. -/
def Obligations.HaltedBlockChangesNothing : Prop :=
  ∀ (s : State), s.host.blockExists = true → ¬s.running → (∀ font image rest, s.host.pending ≠ .load font image :: rest) →
    ∃ t, step s = .next t ∧ t.host.result = .halted ∧ t.host.pending = s.host.pending.tail ∧
      s.keepsAllBut t [.hostPort]

/-- R82 (decision D12 of the spec): a STEP at a pc above 0xFFE raises PcOutOfRange (code 6) with the word 0; what is recorded
and left unchanged is R155 with decisions D15, D26 of the spec (assumption log 8). -/
def Obligations.FetchOutOfRangeFaults : Prop :=
  ∀ (s u : State), s.running → s.stepEntry = some u → s.pc.toNat > 0xFFE → ∃ t, step s = .next t ∧
    t.status = { halted := true, fcode := 6, fword := 0, fpc := s.pc } ∧
    t.host.result = .fault .pcOutOfRange 0 s.pc ∧ s.keepsAllBut t [.faultStatus, .hostPort]

/-- R66, R83: a STEP at a word that no row of the opcode map accepts raises InvalidOpcode (code 1) with the raw word and
its address, and changes no state but the fault status. -/
def Obligations.InvalidWordFaults : Prop :=
  ∀ (s u : State) (w : Word), s.running → s.stepEntry = some u → s.pc.toNat ≤ 0xFFE →
    w.toNat = (Memory.read s.mem s.pc.toNat).toNat * 256 + (Memory.read s.mem (s.pc.toNat + 1)).toNat →
    (∀ r ∈ opcodeRows, w &&& r.mask ≠ r.value) → ∃ t, step s = .next t ∧
      t.status = { halted := true, fcode := 1, fword := w, fpc := s.pc } ∧
      t.host.result = .fault .invalidOpcode w s.pc ∧ s.keepsAllBut t [.faultStatus, .hostPort]

/-! ### The step cycle (40_step_cycle.md) -/

/-- A step runs the decoded instruction: when the next transaction is a STEP of a running block whose pc can be fetched
from, and the bytes at pc decode to i, the step is `exec i` of the state the STEP starts from, which differs from `s` at
the host port only; the result there is Ok until a fault says otherwise. How the host port supplies the inputs is the
model's own (assumption log 1, 2). -/
def Obligations.StepRunsTheDecodedInstruction : Prop :=
  ∀ (s u : State) (i : Instr), s.running → s.stepEntry = some u → s.pc.toNat ≤ 0xFFE →
    decode s.bytesAtPc = .instr i [] →
    step s = exec i u ∧ s.keepsAllBut u [.hostPort] ∧ u.host.result = .ok ∧ u.host.pending = s.host.pending.tail ∧
    (∀ keys rnd rest, s.host.pending = .step keys rnd :: rest → u.host.keys = keys ∧ u.host.rnd = rnd) ∧
    (s.host.pending = [] → u.host.keys = s.host.keys ∧ u.host.rnd = Config.rndDraw s.host.draws ∧
      u.host.draws = s.host.draws + 1)

/-- R86 with R90 to R95 and R143 to R145: the next pc of an instruction that does not fault, from a pc that was fetched
from: NEXT, SKIP, SET or STAY, and no sum wraps (derived in R86 from R82). That a Vx of 16 or more names no pressed key is
decision D18 of the spec (assumption log 13). -/
def Obligations.PcMovesByTheTable : Prop :=
  ∀ (i : Instr) (s t : State), s.running → s.pc.toNat ≤ 0xFFE → exec i s = .next t → t.running →
    match i with
    | .jp nnn => t.pc.toNat = nnn.toNat
    | .call nnn => t.pc.toNat = nnn.toNat
    | .ret => ∃ j : Fin Config.stackSlots, s.depth.val = j.val + 1 ∧ t.pc = s.stack[j.val]
    | .seImm x kk => t.pc.toNat = s.pc.toNat + if s.reg x = kk then 4 else 2
    | .sneImm x kk => t.pc.toNat = s.pc.toNat + if s.reg x ≠ kk then 4 else 2
    | .seReg x y => t.pc.toNat = s.pc.toNat + if s.reg x = s.reg y then 4 else 2
    | .skp x => t.pc.toNat =
        s.pc.toNat + if (s.reg x).toNat ≤ 15 ∧ s.host.keys.getLsbD (s.reg x).toNat = true then 4 else 2
    | .sknp x => t.pc.toNat =
        s.pc.toNat + if (s.reg x).toNat ≤ 15 ∧ s.host.keys.getLsbD (s.reg x).toNat = true then 2 else 4
    | .ldVxK _ => t.pc.toNat = s.pc.toNat + if s.released = none then 0 else 2
    | _ => t.pc.toNat = s.pc.toNat + 2

/-! ### TICK (60_exceptions.md) -/

/-- R164: a TICK of a running block takes one from each timer, floored at 0, and changes nothing else. -/
def Obligations.TickCountsBothTimersDown : Prop :=
  ∀ (s : State) (rest : List HostTx), s.host.blockExists = true → s.running → s.host.pending = .tick :: rest →
    ∃ t, step s = .next t ∧
    t.DT.toNat = s.DT.toNat - 1 ∧ t.ST.toNat = s.ST.toNat - 1 ∧
    t.host = { s.host with pending := rest, result := .ok } ∧
    s.keepsAllBut t [.delayTimer, .soundTimer, .hostPort]

/-- R29, R164: any number of TICKs never takes a timer below 0: k of them leave max(d - k, 0). -/
def Obligations.TimersFloorAtZero : Prop :=
  ∀ (k : Nat) (s : State) (rest : List HostTx), s.host.blockExists = true → s.running →
    s.host.pending = List.replicate k .tick ++ rest →
    ∃ t, Host.Core.run Sys2Proof.core k s = .next t ∧
      t.DT.toNat = s.DT.toNat - k ∧ t.ST.toNat = s.ST.toNat - k ∧ t.host.pending = rest ∧
      s.keepsAllBut t [.delayTimer, .soundTimer, .hostPort]

/-! ### Whole-machine rules -/

/-- R37 (derived there): an instruction that does not fault changes no element of the state but those its row of the
access table names: of memory, Fx33 only the 3 bytes and Fx55 only the x + 1 bytes from I, and every other instruction
none; of the stack, 2nnn only the slot at `depth`, and every other instruction none. -/
def Obligations.ExecWritesOnlyItsRow : Prop :=
  ∀ (i : Instr) (s t : State), s.running → exec i s = .next t → t.running → s.keepsAllBut t i.writes ∧
    (s.mem.wf = true → ∀ a, a < s.I.toNat ∨ s.I.toNat + i.storeLength ≤ a →
      Memory.read t.mem a = Memory.read s.mem a) ∧
    (∀ j : Fin Config.stackSlots, (j.val ≠ s.depth.val ∨ ∀ nnn, i ≠ .call nnn) → t.stack[j.val] = s.stack[j.val])

/-- 20_memory.md R52, 44_display.md R134: over one step, memory changes only by a LOAD or under Fx33 or Fx55, and the
display only by a LOAD or under 00E0 or Dxyn. -/
def Obligations.OnlyStoresAndDrawsReachMemoryAndDisplay : Prop :=
  ∀ (s t : State), step s = .next t → (∀ font image rest, s.host.pending ≠ .load font image :: rest) →
    (¬Element.memory.same s t → ∃ w i, s.fetch = some w ∧ decodeWord w = some i ∧
      ((∃ x, i = .ldB x) ∨ ∃ x, i = .storeRegs x)) ∧
    (¬Element.display.same s t → ∃ w i, s.fetch = some w ∧ decodeWord w = some i ∧
      (i = .cls ∨ ∃ x y n, i = .drw x y n))

/-- 10_state.md R24, R26, R29, R30: over one step that is no LOAD, I changes only under Annn, Fx1E and Fx29; a slot of the
stack only under 2nnn, and then only the slot at `depth`; DT only under Fx15 or a TICK; ST only under Fx18 or a TICK. -/
def Obligations.OnlyTheirOwnWritersReachIndexStackAndTimers : Prop :=
  ∀ (s t : State), step s = .next t → (∀ font image rest, s.host.pending ≠ .load font image :: rest) →
    (t.I ≠ s.I → ∃ w i, s.fetch = some w ∧ decodeWord w = some i ∧
      ((∃ nnn, i = .ldI nnn) ∨ (∃ x, i = .addI x) ∨ ∃ x, i = .ldF x)) ∧
    (∀ j : Fin Config.stackSlots, t.stack[j.val] ≠ s.stack[j.val] → j.val = s.depth.val ∧
      ∃ w nnn, s.fetch = some w ∧ decodeWord w = some (.call nnn)) ∧
    (t.DT ≠ s.DT → (∃ rest, s.host.pending = .tick :: rest) ∨
      ∃ w x, s.fetch = some w ∧ decodeWord w = some (.ldDtVx x)) ∧
    (t.ST ≠ s.ST → (∃ rest, s.host.pending = .tick :: rest) ∨
      ∃ w x, s.fetch = some w ∧ decodeWord w = some (.ldStVx x))

/-- 10_state.md R23: an instruction that changes VF without naming it as its destination is 8xy4, 8xy5 or Dxyn. -/
def Obligations.OnlyThreeInstructionsWriteVFAsAFlag : Prop :=
  ∀ (i : Instr) (s t : State), exec i s = .next t → t.reg VF ≠ s.reg VF →
    (∃ x y, i = .addReg x y) ∨ (∃ x y, i = .subReg x y) ∨ (∃ x y n, i = .drw x y n) ∨
    (∃ kk, i = .ldImm VF kk) ∨ (∃ kk, i = .addImm VF kk) ∨ (∃ y, i = .ldReg VF y) ∨ (∃ y, i = .andReg VF y) ∨
    (∃ y, i = .xorReg VF y) ∨ (∃ kk, i = .rnd VF kk) ∨ i = .ldVxDt VF ∨ i = .ldVxK VF ∨ i = .loadRegs VF

/-- 42_alu.md R108 ("Only Cxkk reads rnd"): the random byte of a STEP reaches no other instruction's effect. -/
def Obligations.OnlyRndReadsTheRandomByte : Prop :=
  ∀ (i : Instr) (s t : State) (b : Byte), (∀ x kk, i ≠ .rnd x kk) → exec i s = .next t →
    exec i { s with host := { s.host with rnd := b } } = .next { t with host := { t.host with rnd := b } }

/-- 10_state.md R30 ("No instruction reads ST"), 60_exceptions.md R161: the sound timer reaches nothing but itself. -/
def Obligations.NoInstructionReadsTheSoundTimer : Prop :=
  ∀ (i : Instr) (s t : State) (b : Byte), exec i s = .next t →
    exec i { s with ST := b } = .next { t with ST := if ∃ x, i = .ldStVx x then t.ST else b }

/-- 10_state.md R35: a program observes `prevKeys` only through Fx0A: for every other instruction two states that differ
in it go to states that differ in it at most. -/
def Obligations.OnlyFx0AObservesTheLatch : Prop :=
  ∀ (i : Instr) (s t : State) (p : KeyMask), (∀ x, i ≠ .ldVxK x) → exec i s = .next t →
    ∃ q, exec i { s with prevKeys := p } = .next { t with prevKeys := q }

/-! ### Construction (70_reset_and_hazards.md) -/

/-- R180 and 10_state.md R36 (decisions D2 to D7 and D14 of the spec give the values): a pending LOAD of an image that fits
builds a new block with the glyphs, the image and zeros in memory and every other element at its reset value, whether or
not a block existed before. The host port goes on with the transactions after it (assumption log 12). -/
def Obligations.LoadBuildsTheBlock : Prop :=
  ∀ (s : State) (font : Vector Byte Config.fontSize) (image : List Byte) (rest : List HostTx),
    s.host.pending = .load font image :: rest → image.length ≤ 3584 → ∃ t, step s = .next t ∧
      (∀ j : Fin Config.fontSize, Memory.read t.mem j.val = font[j.val]) ∧
      (∀ a, 0x50 ≤ a → a < 0x200 → Memory.read t.mem a = 0) ∧
      (∀ (j : Nat) (h : j < image.length), Memory.read t.mem (0x200 + j) = image[j]) ∧
      (∀ a, 0x200 + image.length ≤ a → Memory.read t.mem a = 0) ∧
      (∀ r : RegIdx, t.reg r = 0) ∧ t.I = 0 ∧ t.pc = 0x200 ∧ t.depth.val = 0 ∧
      (∀ j : Fin Config.stackSlots, t.stack[j.val] = 0) ∧ (∀ r c, t.disp.get r c = false) ∧
      t.DT = 0 ∧ t.ST = 0 ∧ t.prevKeys = 0 ∧
      t.status = { halted := false, fcode := 0, fword := 0, fpc := 0 } ∧
      t.host = { s.host with pending := rest, result := .ok, blockExists := true }

/-- R181: a LOAD is ProgramTooLarge exactly when the image has more than 3584 bytes; it answers so, the fault status does
not record it, and no block exists after it. An image of 3584 bytes fills 0x200..0xFFF exactly. How the model says that no
block exists, and that a STEP or a TICK then stops the run under a name of its own, is the model's (assumption log 9). -/
def Obligations.ProgramTooLargeAboveLimit : Prop :=
  ∀ (font : Vector Byte Config.fontSize) (image : List Byte),
    (State.load font image = none ↔ image.length > 3584) ∧
    (∀ t, image.length = 3584 → State.load font image = some t →
      ∀ a, 0x200 ≤ a → a ≤ 0xFFF → image[a - 0x200]? = some (Memory.read t.mem a)) ∧
    (∀ (s : State) (rest : List HostTx), s.host.pending = .load font image :: rest → image.length > 3584 →
      ∃ t, step s = .next t ∧ t.status = s.status ∧
        t.host = { s.host with pending := rest, result := .programTooLarge, blockExists := false }) ∧
    (∀ (s : State), s.host.blockExists = false → (∀ font image rest, s.host.pending ≠ .load font image :: rest) →
      step s = .fault .noBlock)

/-- R151, R181: ProgramTooLarge is recoverable: however many LOADs were too large, a retry queued behind them builds exactly
the block that a first LOAD of its image builds. The queue of retries is the model's (assumption log 1, 9, 12). -/
def Obligations.ProgramTooLargeIsRecoverable : Prop :=
  ∀ (tooLarge : List (Vector Byte Config.fontSize × List Byte)) (font : Vector Byte Config.fontSize)
    (image : List Byte) (s b : State) (rest : List HostTx), (∀ p ∈ tooLarge, p.2.length > 3584) →
    State.load font image = some b →
    s.host.pending = tooLarge.map (fun p => .load p.1 p.2) ++ .load font image :: rest →
    Host.Core.run Sys2Proof.core (tooLarge.length + 1) s =
      .next { b with host := { s.host with pending := rest, result := .ok, blockExists := true } }

/-- 10_state.md R36: the reset state is the one a LOAD of an empty image with the default glyphs leaves. Its first STEP
fetches the word 0 and raises InvalidOpcode (R180, derived there). The default glyphs are general knowledge (assumption
log 5); no other statement names them. The pc 0x200 and the zeros of memory are decisions D2 and D5 of the spec
(assumption log 7); what the fault records and leaves unchanged is R155 with D15 (assumption log 8); and that the step of
the reset state's empty queue is a STEP is the model's choice (assumption log 2, 6). -/
def Obligations.ResetIsTheEmptyLoad : Prop :=
  (∃ font : Vector Byte Config.fontSize, font.toList = Memory.defaultFont ∧
    State.load font [] = some State.reset) ∧
  (∀ a, 0x50 ≤ a → Memory.read State.reset.mem a = 0) ∧
  ∃ t, step State.reset = .next t ∧ t.status = { halted := true, fcode := 1, fword := 0, fpc := 0x200 } ∧
    State.reset.keepsAllBut t [.faultStatus, .hostPort]

/-! ### Encoding (30_encoding.md) -/

/-- R64, R65: decoding the encoding of a well-formed instruction gives it back, every operand at every value its field
admits. -/
def Obligations.DecodeOfEncodeIsTheInstruction : Prop :=
  ∀ i : Instr, i.wf = true → decodeWord (encode i) = some i

/-- R64: each word has one meaning: a word that decodes is the encoding of what it decodes to, which is well-formed. -/
def Obligations.EncodeOfDecodeIsTheWord : Prop :=
  ∀ (w : Word) (i : Instr), decodeWord w = some i → encode i = w ∧ i.wf = true

/-- R64, R65: a word decodes exactly when some row of the opcode map accepts it, at most one row does, and it is the row of
the instruction decoded. -/
def Obligations.DecodeFollowsTheOpcodeMap : Prop :=
  (∀ w : Word, (decodeWord w).isSome = true ↔ ∃ r ∈ opcodeRows, w &&& r.mask = r.value) ∧
  (∀ w : Word, ∀ r ∈ opcodeRows, ∀ q ∈ opcodeRows, w &&& r.mask = r.value → w &&& q.mask = q.value → r = q) ∧
  (∀ (w : Word) (i : Instr), decodeWord w = some i → i.row ∈ opcodeRows ∧ w &&& i.row.mask = i.row.value)

/-- R65, R67: words written out from the opcode map, at least one of each of the fourteen opcode families (leading nibble,
R17) that hold an instruction, decode to their instructions, big-endian, and words of other CHIP-8 descriptions to none
(exact matching and that these are invalid are decisions D8 and D9 of the spec). -/
def Obligations.SampleWordsDecode : Prop :=
  decode [0x00, 0xE0] = .instr .cls [] ∧ decode [0x00, 0xEE] = .instr .ret [] ∧
  decode [0x12, 0x34] = .instr (.jp 0x234) [] ∧ decode [0x2A, 0xBC] = .instr (.call 0xABC) [] ∧
  decode [0x33, 0x10] = .instr (.seImm 3 0x10) [] ∧ decode [0x45, 0x81] = .instr (.sneImm 5 0x81) [] ∧
  decode [0x51, 0x20] = .instr (.seReg 1 2) [] ∧ decode [0x6E, 0x05] = .instr (.ldImm 14 0x05) [] ∧
  decode [0x71, 0x02] = .instr (.addImm 1 0x02) [] ∧ decode [0xC3, 0x0F] = .instr (.rnd 3 0x0F) [] ∧
  decode [0x81, 0x24] = .instr (.addReg 1 2) [] ∧ decode [0xA3, 0x00] = .instr (.ldI 0x300) [] ∧
  decode [0xD2, 0x35] = .instr (.drw 2 3 5) [] ∧ decode [0xE2, 0x9E] = .instr (.skp 2) [] ∧
  decode [0xF1, 0x55] = .instr (.storeRegs 1) [] ∧
  decode [0x81, 0x26] = .rejected (.invalidOpcode 0x8126) ∧ decode [0xB1, 0x23] = .rejected (.invalidOpcode 0xB123)

/-! ### The invariant -/

/-- The invariant holds at reset (R36; the values rest on decisions D2 to D7 and D14 of the spec). -/
def Obligations.ResetMeetsTheInvariant : Prop := State.reset.Inv

/-- Every step, whatever the transaction, keeps the invariant: memory stays canonical, pc at most 0x1002 (R25), return
addresses at most 0x1000 (R92), and the fault status either empty or the record of the word and the pc where the block
stands (R34, R155). -/
def Obligations.EveryStepKeepsTheInvariant : Prop :=
  ∀ s t : State, s.Inv → step s = .next t → t.Inv
end

