-- ==== Sys2Proof/Laws/Decode.lean ====
section
/-! SUPPORT. What each field of an encoded word reads as, format by format (30_encoding.md rules R61, R62), what the
masks of R65 leave of it, and how a word is put together from its fields. -/

namespace Sys2Proof

/-! ### Fields of an encoded word -/

theorem fieldOp_encA (op : BitVec 4) (nnn : BitVec 12) : fieldOp (encA op nnn) = op := by
  unfold fieldOp encA place
  ext i hi; interval_cases i <;> simp

theorem fieldNNN_encA (op : BitVec 4) (nnn : BitVec 12) : fieldNNN (encA op nnn) = nnn := by
  unfold fieldNNN encA place
  ext i hi; interval_cases i <;> simp

theorem fieldOp_encXK (op : BitVec 4) (x : RegIdx) (kk : Byte) : fieldOp (encXK op x kk) = op := by
  unfold fieldOp encXK place
  ext i hi; interval_cases i <;> simp

theorem fieldX_encXK (op : BitVec 4) (x : RegIdx) (kk : Byte) : fieldX (encXK op x kk) = x := by
  have : (encXK op x kk).extractLsb' 8 4 = regBits x := by
    unfold encXK place
    ext i hi; interval_cases i <;> simp
  simp [fieldX, this, regBits]

theorem fieldKK_encXK (op : BitVec 4) (x : RegIdx) (kk : Byte) : fieldKK (encXK op x kk) = kk := by
  unfold fieldKK encXK place
  ext i hi; interval_cases i <;> simp

theorem fieldOp_encXYN (op : BitVec 4) (x y : RegIdx) (n : BitVec 4) : fieldOp (encXYN op x y n) = op := by
  unfold fieldOp encXYN place
  ext i hi; interval_cases i <;> simp

theorem fieldX_encXYN (op : BitVec 4) (x y : RegIdx) (n : BitVec 4) : fieldX (encXYN op x y n) = x := by
  have : (encXYN op x y n).extractLsb' 8 4 = regBits x := by
    unfold encXYN place
    ext i hi; interval_cases i <;> simp
  simp [fieldX, this, regBits]

theorem fieldY_encXYN (op : BitVec 4) (x y : RegIdx) (n : BitVec 4) : fieldY (encXYN op x y n) = y := by
  have : (encXYN op x y n).extractLsb' 4 4 = regBits y := by
    unfold encXYN place
    ext i hi; interval_cases i <;> simp
  simp [fieldY, this, regBits]

theorem fieldN_encXYN (op : BitVec 4) (x y : RegIdx) (n : BitVec 4) : fieldN (encXYN op x y n) = n := by
  unfold fieldN encXYN place
  ext i hi; interval_cases i <;> simp

/-! ### A word is its fields put together -/

theorem encA_fields (w : Word) : encA (fieldOp w) (fieldNNN w) = w := by
  unfold fieldOp fieldNNN encA place
  ext i hi; interval_cases i <;> simp

theorem regBits_fieldX (w : Word) : regBits (fieldX w) = w.extractLsb' 8 4 := rfl

theorem regBits_fieldY (w : Word) : regBits (fieldY w) = w.extractLsb' 4 4 := rfl

theorem encXK_fields (w : Word) : encXK (fieldOp w) (fieldX w) (fieldKK w) = w := by
  unfold encXK
  rw [regBits_fieldX]
  unfold fieldOp fieldKK place
  ext i hi; interval_cases i <;> simp

theorem encXYN_fields (w : Word) : encXYN (fieldOp w) (fieldX w) (fieldY w) (fieldN w) = w := by
  unfold encXYN
  rw [regBits_fieldX, regBits_fieldY]
  unfold fieldOp fieldN place
  ext i hi; interval_cases i <;> simp

/-- The word of two bytes has them as its bytes (R42). -/
theorem wordHi_wordOfBytes (hi lo : Byte) : wordHi (wordOfBytes hi lo) = hi := by
  unfold wordHi wordOfBytes place
  ext i hi; interval_cases i <;> simp

theorem wordLo_wordOfBytes (hi lo : Byte) : wordLo (wordOfBytes hi lo) = lo := by
  unfold wordLo wordOfBytes place
  ext i hi; interval_cases i <;> simp

/-- A word is what its two bytes assemble to (R42). -/
theorem wordOfBytes_bytes (w : Word) : wordOfBytes (wordHi w) (wordLo w) = w := by
  unfold wordHi wordLo wordOfBytes place
  ext i hi; interval_cases i <;> simp

/-- `{hi, lo}` is `hi * 256 + lo` (R10). -/
theorem wordOfBytes_toNat (hi lo : Byte) : (wordOfBytes hi lo).toNat = hi.toNat * 256 + lo.toNat := by
  have h : place hi 8 &&& place lo 0 = 0 := by
    unfold place
    ext i hi; interval_cases i <;> simp
  have hlt := hi.isLt
  have llt := lo.isLt
  rw [wordOfBytes, ← BitVec.add_eq_or_of_and_eq_zero _ _ h]
  simp [place, Nat.shiftLeft_eq]
  omega

/-! ### What the masks of R65 leave -/

theorem encA_mask (op : BitVec 4) (nnn : BitVec 12) : encA op nnn &&& 0xF000#16 = place op 12 := by
  unfold encA place
  ext i hi; interval_cases i <;> simp

theorem encXK_mask (op : BitVec 4) (x : RegIdx) (kk : Byte) : encXK op x kk &&& 0xF000#16 = place op 12 := by
  unfold encXK place
  ext i hi; interval_cases i <;> simp

theorem encXS_mask (op : BitVec 4) (x : RegIdx) (kk : Byte) :
    encXK op x kk &&& 0xF0FF#16 = place op 12 ||| place kk 0 := by
  unfold encXK place
  ext i hi; interval_cases i <;> simp

theorem encXY_mask (op : BitVec 4) (x y : RegIdx) (n : BitVec 4) :
    encXYN op x y n &&& 0xF00F#16 = place op 12 ||| place n 0 := by
  unfold encXYN place
  ext i hi; interval_cases i <;> simp

theorem encXYN_mask (op : BitVec 4) (x y : RegIdx) (n : BitVec 4) : encXYN op x y n &&& 0xF000#16 = place op 12 := by
  unfold encXYN place
  ext i hi; interval_cases i <;> simp

end Sys2Proof
end

