-- ==== Sys2Proof/Laws/Display.lean ====
section
/-! SUPPORT. The rasterizer, once: what drawing does to each pixel and to the collision note. The double loop of R131 is a
run over a list of targets; no two of them are the same pixel, so each pixel is flipped at most once. -/

namespace Sys2Proof.Machine

/-- All of what flipping one pixel does. -/
theorem Display.get_flip (d : Display) (r r' : Fin Config.rows) (c c' : Fin Config.cols) :
    (d.flip r c).get r' c' = if r' = r ∧ c' = c then !d.get r c else d.get r' c' := by
  unfold Display.flip Display.get
  by_cases hr : r' = r
  · subst hr
    by_cases hc : c' = c
    · subst hc; simp
    · have : c.val ≠ c'.val := fun e => hc (Fin.ext e.symm)
      simp [hc, this]
  · have : r.val ≠ r'.val := fun e => hr (Fin.ext e.symm)
    simp [hr, this]

@[simp] theorem Display.get_off (r : Fin Config.rows) (c : Fin Config.cols) : Display.off.get r c = false := by
  simp [Display.off, Display.get]

/-- Two displays with the same pixels are the same display. -/
theorem Display.ext_get {d e : Display} (h : ∀ r c, d.get r c = e.get r c) : d = e := by
  apply Vector.ext
  intro i hi
  apply Vector.ext
  intro j hj
  exact h ⟨i, hi⟩ ⟨j, hj⟩

/-- One target of a draw: whether its sprite bit is set, and its pixel. -/
abbrev Target := Bool × Fin Config.rows × Fin Config.cols

/-- The targets of a draw, in the order of R131's loops. -/
def targets (mem : Memory) (a cx cy n : Nat) : List Target :=
  (List.range n).flatMap fun r => (List.range 8).map fun c =>
    (spriteBit (Memory.read mem (a + r)) c, wrapRow (cy + r), wrapCol (cx + c))

/-- One target drawn. -/
def drawTarget (p : Display × Bool) (t : Target) : Display × Bool := drawBit t.1 t.2.1 t.2.2 p

theorem drawRows_eq_targets (mem : Memory) (a cx cy n : Nat) (p : Display × Bool) :
    drawRows mem a cx cy n p = (targets mem a cx cy n).foldl drawTarget p := by
  unfold drawRows targets drawByte
  rw [List.foldl_flatMap]
  simp only [List.foldl_map]
  rfl

theorem drawTarget_get (p : Display × Bool) (t : Target) (r : Fin Config.rows) (c : Fin Config.cols) :
    (drawTarget p t).1.get r c = (p.1.get r c ^^ (t.1 && decide (t.2 = (r, c)))) := by
  obtain ⟨b, r', c'⟩ := t
  unfold drawTarget drawBit
  cases b
  · simp
  · simp only [if_true, Display.get_flip, Bool.true_and, Prod.mk.injEq]
    by_cases h : r = r' ∧ c = c'
    · obtain ⟨rfl, rfl⟩ := h; simp
    · have h' : ¬(r' = r ∧ c' = c) := fun e => h ⟨e.1.symm, e.2.symm⟩
      simp [h, h']

theorem drawTarget_hit (p : Display × Bool) (t : Target) :
    (drawTarget p t).2 = (p.2 || (t.1 && p.1.get t.2.1 t.2.2)) := by
  unfold drawTarget drawBit
  cases t.1 <;> simp

/-- All of what drawing a list of distinct targets does: each pixel is flipped if a set target names it, and the note says
whether a set target's pixel was on before. -/
theorem foldl_drawTarget (ts : List Target) (hnd : (ts.map Prod.snd).Nodup) (p : Display × Bool) :
    (∀ r c, (ts.foldl drawTarget p).1.get r c = (p.1.get r c ^^ ts.any fun t => t.1 && decide (t.2 = (r, c)))) ∧
      (ts.foldl drawTarget p).2 = (p.2 || ts.any fun t => t.1 && p.1.get t.2.1 t.2.2) := by
  induction ts generalizing p with
  | nil => simp
  | cons t ts ih =>
    simp only [List.map_cons, List.nodup_cons, List.mem_map, not_exists, not_and] at hnd
    obtain ⟨hget, hhit⟩ := ih hnd.2 (drawTarget p t)
    simp only [List.foldl_cons, List.any_cons]
    refine ⟨fun r c => ?_, ?_⟩
    · rw [hget, drawTarget_get]
      by_cases ht : t.2 = (r, c)
      · have hno : (ts.any fun u => u.1 && decide (u.2 = (r, c))) = false := by
          rw [List.any_eq_false]
          intro u hu
          simp only [Bool.and_eq_true, decide_eq_true_eq, not_and]
          exact fun _ e => hnd.1 u hu (Eq.trans e ht.symm)
        simp [hno]
      · simp [ht]
    · rw [hhit, drawTarget_hit]
      have hsame : (ts.any fun u => u.1 && (drawTarget p t).1.get u.2.1 u.2.2) =
          ts.any fun u => u.1 && p.1.get u.2.1 u.2.2 := by
        apply Bool.eq_iff_iff.mpr
        simp only [List.any_eq_true]
        constructor <;>
        · rintro ⟨u, hu, h⟩
          refine ⟨u, hu, ?_⟩
          have : t.2 ≠ (u.2.1, u.2.2) := fun e => hnd.1 u hu e.symm
          simpa [drawTarget_get, this] using h
      rw [hsame, Bool.or_assoc]

theorem wrapRow_eq {r : Fin Config.rows} {n : Nat} (h : r.val = n % 32) : r = wrapRow n := Fin.ext h

theorem wrapCol_eq {c : Fin Config.cols} {n : Nat} (h : c.val = n % 64) : c = wrapCol n := Fin.ext h

theorem wrapRow_inj {cy r r' : Nat} (hr : r < 32) (hr' : r' < 32) (h : wrapRow (cy + r) = wrapRow (cy + r')) :
    r = r' := by
  have := congrArg Fin.val h
  simp only [wrapRow, Config.rows] at this
  omega

theorem wrapCol_inj {cx c c' : Nat} (hc : c < 64) (hc' : c' < 64) (h : wrapCol (cx + c) = wrapCol (cx + c')) :
    c = c' := by
  have := congrArg Fin.val h
  simp only [wrapCol, Config.cols] at this
  omega

/-- A sprite of at most 32 rows names no pixel twice (R131). -/
theorem targets_nodup (mem : Memory) (a cx cy : Nat) {n : Nat} (hn : n ≤ 32) :
    ((targets mem a cx cy n).map Prod.snd).Nodup := by
  unfold targets
  rw [List.map_flatMap, List.nodup_flatMap]
  constructor
  · intro r _
    rw [List.map_map]
    refine List.Nodup.map_on ?_ List.nodup_range
    intro c hc c' hc' h
    simp only [Function.comp_apply, Prod.mk.injEq] at h
    rw [List.mem_range] at hc hc'
    exact wrapCol_inj (by omega) (by omega) h.2
  · refine List.Pairwise.imp_of_mem ?_ List.nodup_range
    intro r r' hr hr' hne
    simp only [Function.onFun, List.map_map]
    intro q hq hq'
    simp only [List.mem_map, Function.comp_apply] at hq hq'
    obtain ⟨c, _, rfl⟩ := hq
    obtain ⟨c', _, h⟩ := hq'
    rw [List.mem_range] at hr hr'
    simp only [Prod.mk.injEq] at h
    exact hne (wrapRow_inj (by omega) (by omega) h.1.symm)

theorem mem_targets {mem : Memory} {a cx cy n : Nat} {t : Target} :
    t ∈ targets mem a cx cy n ↔
      ∃ k < n, ∃ j < 8, t = (spriteBit (Memory.read mem (a + k)) j, wrapRow (cy + k), wrapCol (cx + j)) := by
  simp only [targets, List.mem_flatMap, List.mem_map, List.mem_range, eq_comm (b := t)]

/-- A draw at a pixel under sprite bit `j` of row `k`: the pixel is XORed with the bit. -/
theorem drawRows_get_target (mem : Memory) (a cx cy : Nat) {n : Nat} (hn : n ≤ 32) (p : Display × Bool)
    {k j : Nat} (hk : k < n) (hj : j < 8) :
    (drawRows mem a cx cy n p).1.get (wrapRow (cy + k)) (wrapCol (cx + j)) =
      (p.1.get (wrapRow (cy + k)) (wrapCol (cx + j)) ^^ spriteBit (Memory.read mem (a + k)) j) := by
  rw [drawRows_eq_targets, (foldl_drawTarget _ (targets_nodup mem a cx cy hn) p).1]
  congr 1
  apply Bool.eq_iff_iff.mpr
  simp only [List.any_eq_true, Bool.and_eq_true, decide_eq_true_eq]
  constructor
  · rintro ⟨t, ht, hset, hpos⟩
    obtain ⟨k', hk', j', hj', rfl⟩ := mem_targets.mp ht
    simp only [Prod.mk.injEq] at hpos
    obtain rfl := wrapRow_inj (by omega) (by omega) hpos.1
    obtain rfl := wrapCol_inj (by omega) (by omega) hpos.2
    exact hset
  · intro h
    exact ⟨_, mem_targets.mpr ⟨k, hk, j, hj, rfl⟩, h, rfl⟩

/-- A draw at a pixel under no sprite bit: the pixel stays. -/
theorem drawRows_get_other (mem : Memory) (a cx cy : Nat) {n : Nat} (hn : n ≤ 32) (p : Display × Bool)
    {r : Fin Config.rows} {c : Fin Config.cols}
    (h : ∀ k < n, ∀ j < 8, ¬(wrapRow (cy + k) = r ∧ wrapCol (cx + j) = c)) :
    (drawRows mem a cx cy n p).1.get r c = p.1.get r c := by
  rw [drawRows_eq_targets, (foldl_drawTarget _ (targets_nodup mem a cx cy hn) p).1]
  have : ((targets mem a cx cy n).any fun t => t.1 && decide (t.2 = (r, c))) = false := by
    rw [List.any_eq_false]
    intro t ht
    obtain ⟨k, hk, j, hj, rfl⟩ := mem_targets.mp ht
    simp only [Bool.and_eq_true, decide_eq_true_eq, Prod.mk.injEq, not_and]
    intro _ hr
    exact fun hc => h k hk j hj ⟨hr, hc⟩
  simp [this]

/-- The collision note of a draw: some set sprite bit's pixel was on before it. -/
theorem drawRows_hit (mem : Memory) (a cx cy : Nat) {n : Nat} (hn : n ≤ 32) (d : Display) :
    (drawRows mem a cx cy n (d, false)).2 = true ↔
      ∃ k < n, ∃ j < 8, spriteBit (Memory.read mem (a + k)) j = true ∧
        d.get (wrapRow (cy + k)) (wrapCol (cx + j)) = true := by
  rw [drawRows_eq_targets, (foldl_drawTarget _ (targets_nodup mem a cx cy hn) (d, false)).2]
  simp only [Bool.false_or, List.any_eq_true, Bool.and_eq_true]
  constructor
  · rintro ⟨t, ht, hset, hon⟩
    obtain ⟨k, hk, j, hj, rfl⟩ := mem_targets.mp ht
    exact ⟨k, hk, j, hj, hset, hon⟩
  · rintro ⟨k, hk, j, hj, hset, hon⟩
    exact ⟨_, mem_targets.mpr ⟨k, hk, j, hj, rfl⟩, hset, hon⟩

end Sys2Proof.Machine
end

