-- ==== Sys2Proof/Laws/Memory.lean ====
section
/-! SUPPORT. Memory laws: a read after a write, runs of bytes, memory as LOAD lays it out, and that every operation keeps
the canonical form. -/

namespace Sys2Proof.Machine.Memory

/-! ### The canonical form -/

theorem wfFrom_cons {lo k : Nat} {b : Byte} {rest : Memory} :
    wfFrom lo ((k, b) :: rest) = true ↔
      lo ≤ k ∧ k < Config.memSize ∧ b ≠ background k ∧ wfFrom (k + 1) rest = true := by
  simp [wfFrom, and_assoc]

/-- A lower bound on the addresses may be lowered. -/
theorem wfFrom_mono {lo lo' : Nat} {m : Memory} (hle : lo' ≤ lo) (h : wfFrom lo m = true) : wfFrom lo' m = true := by
  cases m with
  | nil => rfl
  | cons c rest =>
    obtain ⟨k, b⟩ := c
    rw [wfFrom_cons] at h ⊢
    exact ⟨by omega, h.2⟩

/-- The addresses all lie below `hi`. -/
def below (hi : Nat) (m : Memory) : Prop := ∀ c ∈ m, c.1 < hi

/-- Below the lower bound nothing is listed. -/
theorem read_of_lt {lo a : Nat} {m : Memory} (h : wfFrom lo m = true) (ha : a < lo) : read m a = background a := by
  induction m generalizing lo with
  | nil => rfl
  | cons c rest ih =>
    obtain ⟨k, b⟩ := c
    rw [wfFrom_cons] at h
    have hk : k ≠ a := by omega
    simp only [read, hk, if_false]
    exact ih h.2.2.2 (by omega)

/-! ### One byte -/

/-- A cell put before higher cells is read at its address, and nowhere else. -/
theorem read_cell_append {a : Nat} {b : Byte} {m : Memory} (h : wfFrom (a + 1) m = true) (c : Nat) :
    read (cell a b ++ m) c = if c = a then b else read m c := by
  unfold cell
  split
  · next hb =>
    split
    · next hc => subst hc; simpa [hb] using read_of_lt h (Nat.lt_succ_self c)
    · rfl
  · simp only [List.cons_append, List.nil_append, read, eq_comm (a := a)]

/-- A cell put before higher cells keeps the canonical form. -/
theorem wfFrom_cell_append {lo a : Nat} {b : Byte} {m : Memory} (hlo : lo ≤ a) (ha : a < Config.memSize)
    (h : wfFrom (a + 1) m = true) : wfFrom lo (cell a b ++ m) = true := by
  unfold cell
  split
  · exact wfFrom_mono (by omega) h
  · next hb =>
    simp only [List.cons_append, List.nil_append, wfFrom_cons]
    exact ⟨hlo, ha, hb, h⟩

theorem read_write_from {lo : Nat} {m : Memory} (h : wfFrom lo m = true) (a : Nat) (b : Byte) (c : Nat) :
    read (write m a b) c = if c = a then b else read m c := by
  induction m generalizing lo with
  | nil => simpa [write] using read_cell_append (m := []) rfl c
  | cons d rest ih =>
    obtain ⟨k, v⟩ := d
    have hd := wfFrom_cons.mp h
    unfold write
    split
    · next hlt =>
      rw [read_cell_append (wfFrom_cons.mpr ⟨by omega, hd.2⟩)]
    · split
      · next hak =>
        subst hak
        rw [read_cell_append hd.2.2.2]
        split
        · rfl
        · next hc => simp [read, Ne.symm hc]
      · next hak =>
        simp only [read, ih hd.2.2.2]
        by_cases hk : k = c
        · subst hk; simp [Ne.symm hak]
        · simp [hk]

theorem wfFrom_write {lo : Nat} {m : Memory} (h : wfFrom lo m = true) {a : Nat} (hlo : lo ≤ a)
    (ha : a < Config.memSize) (b : Byte) : wfFrom lo (write m a b) = true := by
  induction m generalizing lo with
  | nil => simpa [write] using wfFrom_cell_append (m := []) hlo ha rfl
  | cons d rest ih =>
    obtain ⟨k, v⟩ := d
    have hd := wfFrom_cons.mp h
    unfold write
    split
    · exact wfFrom_cell_append hlo ha (wfFrom_cons.mpr ⟨by omega, hd.2⟩)
    · split
      · next hak => subst hak; exact wfFrom_cell_append hlo ha hd.2.2.2
      · exact wfFrom_cons.mpr ⟨hd.1, hd.2.1, hd.2.2.1, ih hd.2.2.2 (by omega)⟩

/-- A read after a write gives the byte written at its address and what was there before elsewhere. -/
theorem read_write {m : Memory} (h : m.wf = true) (a : Nat) (b : Byte) (c : Nat) :
    read (write m a b) c = if c = a then b else read m c :=
  read_write_from h a b c

/-- A write within memory keeps the canonical form. -/
theorem wf_write {m : Memory} (h : m.wf = true) {a : Nat} (ha : a < Config.memSize) (b : Byte) :
    (write m a b).wf = true :=
  wfFrom_write h (Nat.zero_le a) ha b

/-! ### Runs of bytes -/

theorem wf_writeBytes {m : Memory} (h : m.wf = true) {a : Nat} {bs : List Byte}
    (ha : a + bs.length ≤ Config.memSize) : (writeBytes m a bs).wf = true := by
  induction bs generalizing m a with
  | nil => exact h
  | cons b bs ih =>
    simp only [List.length_cons] at ha
    exact ih (wf_write h (by omega) b) (by omega)

/-- All of what a run of writes does: its bytes are read back, and every other address reads as before. The whole run
lies within memory. -/
theorem read_writeBytes {m : Memory} (h : m.wf = true) {a : Nat} {bs : List Byte}
    (ha : a + bs.length ≤ Config.memSize) (c : Nat) :
    read (writeBytes m a bs) c = if a ≤ c ∧ c < a + bs.length then bs.getD (c - a) 0 else read m c := by
  induction bs generalizing m a with
  | nil =>
    have : ¬(a ≤ c ∧ c < a + ([] : List Byte).length) := by simp
    rw [if_neg this]; rfl
  | cons b bs ih =>
    simp only [List.length_cons] at ha
    rw [writeBytes, ih (wf_write h (by omega) b) (by omega), read_write h]
    simp only [List.length_cons]
    by_cases hc : c = a
    · subst hc
      simp
    · by_cases hin : a + 1 ≤ c ∧ c < a + 1 + bs.length
      · rw [if_pos hin, if_pos (by omega)]
        obtain ⟨j, rfl⟩ : ∃ j, c = a + 1 + j := ⟨c - (a + 1), by omega⟩
        rw [show a + 1 + j - (a + 1) = j by omega, show a + 1 + j - a = j + 1 by omega]
        simp
      · rw [if_neg hin, if_neg hc, if_neg (by omega)]

/-! ### Memory as LOAD lays it out -/

theorem wfFrom_layout {lo a : Nat} {bs : List Byte} (hlo : lo ≤ a) (ha : a + bs.length ≤ Config.memSize) :
    wfFrom lo (layout a bs) = true := by
  induction bs generalizing lo a with
  | nil => rfl
  | cons b bs ih =>
    simp only [List.length_cons] at ha
    exact wfFrom_cell_append hlo (by omega) (ih (Nat.le_refl _) (by omega))

theorem read_layout {a : Nat} {bs : List Byte} (ha : a + bs.length ≤ Config.memSize) (c : Nat) :
    read (layout a bs) c = if a ≤ c ∧ c < a + bs.length then bs.getD (c - a) 0 else background c := by
  induction bs generalizing a with
  | nil =>
    have : ¬(a ≤ c ∧ c < a + ([] : List Byte).length) := by simp
    rw [if_neg this]; rfl
  | cons b bs ih =>
    simp only [List.length_cons] at ha
    rw [layout, read_cell_append (wfFrom_layout (Nat.le_refl _) (by omega)), ih (by omega)]
    simp only [List.length_cons]
    by_cases hc : c = a
    · subst hc
      simp
    · rw [if_neg hc]
      by_cases hin : a + 1 ≤ c ∧ c < a + 1 + bs.length
      · rw [if_pos hin, if_pos (by omega)]
        obtain ⟨j, rfl⟩ : ∃ j, c = a + 1 + j := ⟨c - (a + 1), by omega⟩
        rw [show a + 1 + j - (a + 1) = j by omega, show a + 1 + j - a = j + 1 by omega]
        simp
      · rw [if_neg hin, if_neg (by omega)]

theorem below_layout (a : Nat) (bs : List Byte) : below (a + bs.length) (layout a bs) := by
  induction bs generalizing a with
  | nil => intro c hc; cases hc
  | cons b bs ih =>
    intro c hc
    simp only [layout, List.mem_append] at hc
    simp only [List.length_cons]
    rcases hc with hc | hc
    · unfold cell at hc
      split at hc
      · cases hc
      · simp only [List.mem_singleton] at hc
        subst hc
        show a < a + (bs.length + 1)
        omega
    · have := ih (a + 1) c hc
      omega

theorem wfFrom_append {lo hi : Nat} {m n : Memory} (hm : wfFrom lo m = true) (hb : below hi m) (hle : lo ≤ hi)
    (hn : wfFrom hi n = true) : wfFrom lo (m ++ n) = true := by
  induction m generalizing lo with
  | nil => exact wfFrom_mono hle hn
  | cons d rest ih =>
    obtain ⟨k, b⟩ := d
    rw [wfFrom_cons] at hm
    have hk : k < hi := hb (k, b) (by simp)
    simp only [List.cons_append, wfFrom_cons]
    exact ⟨hm.1, hm.2.1, hm.2.2.1, ih hm.2.2.2 (fun c hc => hb c (by simp [hc])) (by omega)⟩

theorem read_append {lo hi : Nat} {m n : Memory} (hm : wfFrom lo m = true) (hb : below hi m)
    (hn : wfFrom hi n = true) (a : Nat) : read (m ++ n) a = if a < hi then read m a else read n a := by
  induction m generalizing lo with
  | nil =>
    simp only [List.nil_append]
    split
    · next h => exact read_of_lt hn h
    · rfl
  | cons d rest ih =>
    obtain ⟨k, b⟩ := d
    rw [wfFrom_cons] at hm
    have hk : k < hi := hb (k, b) (by simp)
    simp only [List.cons_append, read, ih hm.2.2.2 (fun c hc => hb c (by simp [hc]))]
    by_cases hka : k = a
    · subst hka; simp [hk]
    · simp [hka]

theorem font_length (font : Vector Byte Config.fontSize) : font.toList.length = 80 := by simp [Config.fontSize]

/-- Memory after a LOAD that is accepted is in its canonical form. -/
theorem wf_ofLoad (font : Vector Byte Config.fontSize) {image : List Byte} (h : image.length ≤ Config.maxImage) :
    (ofLoad font image).wf = true := by
  have hf := font_length font
  simp only [Config.maxImage, Config.memSize, Config.loadAddr] at h
  refine wfFrom_append (hi := 0 + font.toList.length) ?_ (below_layout 0 _) (by omega) ?_
  · exact wfFrom_layout (Nat.le_refl _) (by simp only [Config.memSize]; omega)
  · exact wfFrom_layout (by simp only [Config.loadAddr]; omega) (by simp only [Config.loadAddr, Config.memSize]; omega)

/-- The default glyphs end where the glyph area ends: above it unlisted memory is zero (R36). -/
theorem background_of_ge {a : Nat} (h : 80 ≤ a) : background a = 0 := by
  have hl : defaultFont.length = 80 := by decide
  rw [background, List.getD_eq_default _ _ (by omega)]

/-- All of what an accepted LOAD leaves in memory (R180). -/
theorem read_ofLoad (font : Vector Byte Config.fontSize) {image : List Byte} (h : image.length ≤ Config.maxImage)
    (a : Nat) :
    read (ofLoad font image) a =
      if a < 80 then font.toList.getD a 0
      else if 0x200 ≤ a ∧ a < 0x200 + image.length then image.getD (a - 0x200) 0 else 0 := by
  have hf := font_length font
  simp only [Config.maxImage, Config.memSize, Config.loadAddr] at h
  have h1 : wfFrom 0 (layout 0 font.toList) = true :=
    wfFrom_layout (Nat.le_refl _) (by simp only [Config.memSize]; omega)
  have h2 : wfFrom (0 + font.toList.length) (layout Config.loadAddr image) = true :=
    wfFrom_layout (by simp only [Config.loadAddr]; omega) (by simp only [Config.loadAddr, Config.memSize]; omega)
  rw [ofLoad, read_append h1 (below_layout 0 _) h2, read_layout (by simp only [Config.memSize]; omega),
    read_layout (by simp only [Config.loadAddr, Config.memSize]; omega), hf]
  simp only [Config.loadAddr, Nat.zero_add, Nat.zero_le, true_and, Nat.sub_zero]
  split
  · rfl
  · next hlt =>
    split
    · rfl
    · exact background_of_ge (by omega)

end Sys2Proof.Machine.Memory
end

