-- ==== Sys2Proof/Laws/State.lean ====
section
/-! SUPPORT. What each update of the state leaves in each field, one lemma per field per update, true by `rfl`; how the
ends of an instruction and the raising of a fault reduce to one update; and registers read after a write. -/

namespace Sys2Proof.Machine.State

variable (s : State)

/-! ### `setReg` -/

@[simp] theorem setReg_mem (x : RegIdx) (b : Byte) : (s.setReg x b).mem = s.mem := rfl
@[simp] theorem setReg_V (x : RegIdx) (b : Byte) : (s.setReg x b).V = s.V.set x.val b := rfl
@[simp] theorem setReg_I (x : RegIdx) (b : Byte) : (s.setReg x b).I = s.I := rfl
@[simp] theorem setReg_pc (x : RegIdx) (b : Byte) : (s.setReg x b).pc = s.pc := rfl
@[simp] theorem setReg_stack (x : RegIdx) (b : Byte) : (s.setReg x b).stack = s.stack := rfl
@[simp] theorem setReg_depth (x : RegIdx) (b : Byte) : (s.setReg x b).depth = s.depth := rfl
@[simp] theorem setReg_disp (x : RegIdx) (b : Byte) : (s.setReg x b).disp = s.disp := rfl
@[simp] theorem setReg_DT (x : RegIdx) (b : Byte) : (s.setReg x b).DT = s.DT := rfl
@[simp] theorem setReg_ST (x : RegIdx) (b : Byte) : (s.setReg x b).ST = s.ST := rfl
@[simp] theorem setReg_prevKeys (x : RegIdx) (b : Byte) : (s.setReg x b).prevKeys = s.prevKeys := rfl
@[simp] theorem setReg_status (x : RegIdx) (b : Byte) : (s.setReg x b).status = s.status := rfl
@[simp] theorem setReg_host (x : RegIdx) (b : Byte) : (s.setReg x b).host = s.host := rfl

/-! ### `setRegsThrough` -/

@[simp] theorem setRegsThrough_mem (x : RegIdx) (f : Nat → Byte) : (s.setRegsThrough x f).mem = s.mem := rfl
@[simp] theorem setRegsThrough_V (x : RegIdx) (f : Nat → Byte) : (s.setRegsThrough x f).V = Vector.ofFn fun r : RegIdx => if r ≤ x then f r.val else s.V[r.val] := rfl
@[simp] theorem setRegsThrough_I (x : RegIdx) (f : Nat → Byte) : (s.setRegsThrough x f).I = s.I := rfl
@[simp] theorem setRegsThrough_pc (x : RegIdx) (f : Nat → Byte) : (s.setRegsThrough x f).pc = s.pc := rfl
@[simp] theorem setRegsThrough_stack (x : RegIdx) (f : Nat → Byte) : (s.setRegsThrough x f).stack = s.stack := rfl
@[simp] theorem setRegsThrough_depth (x : RegIdx) (f : Nat → Byte) : (s.setRegsThrough x f).depth = s.depth := rfl
@[simp] theorem setRegsThrough_disp (x : RegIdx) (f : Nat → Byte) : (s.setRegsThrough x f).disp = s.disp := rfl
@[simp] theorem setRegsThrough_DT (x : RegIdx) (f : Nat → Byte) : (s.setRegsThrough x f).DT = s.DT := rfl
@[simp] theorem setRegsThrough_ST (x : RegIdx) (f : Nat → Byte) : (s.setRegsThrough x f).ST = s.ST := rfl
@[simp] theorem setRegsThrough_prevKeys (x : RegIdx) (f : Nat → Byte) : (s.setRegsThrough x f).prevKeys = s.prevKeys := rfl
@[simp] theorem setRegsThrough_status (x : RegIdx) (f : Nat → Byte) : (s.setRegsThrough x f).status = s.status := rfl
@[simp] theorem setRegsThrough_host (x : RegIdx) (f : Nat → Byte) : (s.setRegsThrough x f).host = s.host := rfl

/-! ### `setFlagThenReg` -/

@[simp] theorem setFlagThenReg_mem (x : RegIdx) (b c : Byte) : (s.setFlagThenReg x b c).mem = s.mem := rfl
@[simp] theorem setFlagThenReg_V (x : RegIdx) (b c : Byte) : (s.setFlagThenReg x b c).V = (s.V.set VF.val b).set x.val c := rfl
@[simp] theorem setFlagThenReg_I (x : RegIdx) (b c : Byte) : (s.setFlagThenReg x b c).I = s.I := rfl
@[simp] theorem setFlagThenReg_pc (x : RegIdx) (b c : Byte) : (s.setFlagThenReg x b c).pc = s.pc := rfl
@[simp] theorem setFlagThenReg_stack (x : RegIdx) (b c : Byte) : (s.setFlagThenReg x b c).stack = s.stack := rfl
@[simp] theorem setFlagThenReg_depth (x : RegIdx) (b c : Byte) : (s.setFlagThenReg x b c).depth = s.depth := rfl
@[simp] theorem setFlagThenReg_disp (x : RegIdx) (b c : Byte) : (s.setFlagThenReg x b c).disp = s.disp := rfl
@[simp] theorem setFlagThenReg_DT (x : RegIdx) (b c : Byte) : (s.setFlagThenReg x b c).DT = s.DT := rfl
@[simp] theorem setFlagThenReg_ST (x : RegIdx) (b c : Byte) : (s.setFlagThenReg x b c).ST = s.ST := rfl
@[simp] theorem setFlagThenReg_prevKeys (x : RegIdx) (b c : Byte) : (s.setFlagThenReg x b c).prevKeys = s.prevKeys := rfl
@[simp] theorem setFlagThenReg_status (x : RegIdx) (b c : Byte) : (s.setFlagThenReg x b c).status = s.status := rfl
@[simp] theorem setFlagThenReg_host (x : RegIdx) (b c : Byte) : (s.setFlagThenReg x b c).host = s.host := rfl

/-! ### `commit` -/

@[simp] theorem commit_mem (w : Word) : (s.commit w).mem = s.mem := rfl
@[simp] theorem commit_V (w : Word) : (s.commit w).V = s.V := rfl
@[simp] theorem commit_I (w : Word) : (s.commit w).I = s.I := rfl
@[simp] theorem commit_pc (w : Word) : (s.commit w).pc = w := rfl
@[simp] theorem commit_stack (w : Word) : (s.commit w).stack = s.stack := rfl
@[simp] theorem commit_depth (w : Word) : (s.commit w).depth = s.depth := rfl
@[simp] theorem commit_disp (w : Word) : (s.commit w).disp = s.disp := rfl
@[simp] theorem commit_DT (w : Word) : (s.commit w).DT = s.DT := rfl
@[simp] theorem commit_ST (w : Word) : (s.commit w).ST = s.ST := rfl
@[simp] theorem commit_prevKeys (w : Word) : (s.commit w).prevKeys = s.host.keys := rfl
@[simp] theorem commit_status (w : Word) : (s.commit w).status = s.status := rfl
@[simp] theorem commit_host (w : Word) : (s.commit w).host = s.host := rfl

/-! ### `raise` -/

@[simp] theorem raise_mem (k : FaultKind) (w : Word) : (s.raise k w).mem = s.mem := rfl
@[simp] theorem raise_V (k : FaultKind) (w : Word) : (s.raise k w).V = s.V := rfl
@[simp] theorem raise_I (k : FaultKind) (w : Word) : (s.raise k w).I = s.I := rfl
@[simp] theorem raise_pc (k : FaultKind) (w : Word) : (s.raise k w).pc = s.pc := rfl
@[simp] theorem raise_stack (k : FaultKind) (w : Word) : (s.raise k w).stack = s.stack := rfl
@[simp] theorem raise_depth (k : FaultKind) (w : Word) : (s.raise k w).depth = s.depth := rfl
@[simp] theorem raise_disp (k : FaultKind) (w : Word) : (s.raise k w).disp = s.disp := rfl
@[simp] theorem raise_DT (k : FaultKind) (w : Word) : (s.raise k w).DT = s.DT := rfl
@[simp] theorem raise_ST (k : FaultKind) (w : Word) : (s.raise k w).ST = s.ST := rfl
@[simp] theorem raise_prevKeys (k : FaultKind) (w : Word) : (s.raise k w).prevKeys = s.prevKeys := rfl
@[simp] theorem raise_status (k : FaultKind) (w : Word) : (s.raise k w).status = ⟨true, k.code, w, s.pc⟩ := rfl
@[simp] theorem raise_host (k : FaultKind) (w : Word) : (s.raise k w).host = { s.host with result := .fault k w s.pc } := rfl

/-! ### `present` -/

@[simp] theorem present_mem (k : KeyMask) (r : Byte) : (s.present k r).mem = s.mem := rfl
@[simp] theorem present_V (k : KeyMask) (r : Byte) : (s.present k r).V = s.V := rfl
@[simp] theorem present_I (k : KeyMask) (r : Byte) : (s.present k r).I = s.I := rfl
@[simp] theorem present_pc (k : KeyMask) (r : Byte) : (s.present k r).pc = s.pc := rfl
@[simp] theorem present_stack (k : KeyMask) (r : Byte) : (s.present k r).stack = s.stack := rfl
@[simp] theorem present_depth (k : KeyMask) (r : Byte) : (s.present k r).depth = s.depth := rfl
@[simp] theorem present_disp (k : KeyMask) (r : Byte) : (s.present k r).disp = s.disp := rfl
@[simp] theorem present_DT (k : KeyMask) (r : Byte) : (s.present k r).DT = s.DT := rfl
@[simp] theorem present_ST (k : KeyMask) (r : Byte) : (s.present k r).ST = s.ST := rfl
@[simp] theorem present_prevKeys (k : KeyMask) (r : Byte) : (s.present k r).prevKeys = s.prevKeys := rfl
@[simp] theorem present_status (k : KeyMask) (r : Byte) : (s.present k r).status = s.status := rfl
@[simp] theorem present_host (k : KeyMask) (r : Byte) : (s.present k r).host = { s.host with keys := k, rnd := r, result := .ok } := rfl

/-! ### `answerHalted` -/

@[simp] theorem answerHalted_mem : (s.answerHalted).mem = s.mem := rfl
@[simp] theorem answerHalted_V : (s.answerHalted).V = s.V := rfl
@[simp] theorem answerHalted_I : (s.answerHalted).I = s.I := rfl
@[simp] theorem answerHalted_pc : (s.answerHalted).pc = s.pc := rfl
@[simp] theorem answerHalted_stack : (s.answerHalted).stack = s.stack := rfl
@[simp] theorem answerHalted_depth : (s.answerHalted).depth = s.depth := rfl
@[simp] theorem answerHalted_disp : (s.answerHalted).disp = s.disp := rfl
@[simp] theorem answerHalted_DT : (s.answerHalted).DT = s.DT := rfl
@[simp] theorem answerHalted_ST : (s.answerHalted).ST = s.ST := rfl
@[simp] theorem answerHalted_prevKeys : (s.answerHalted).prevKeys = s.prevKeys := rfl
@[simp] theorem answerHalted_status : (s.answerHalted).status = s.status := rfl
@[simp] theorem answerHalted_host : (s.answerHalted).host = { s.host with result := .halted } := rfl

/-! ### Reductions to one update -/

@[simp] theorem next_eq_commit : s.next = s.commit (s.pc + 2) := rfl
@[simp] theorem skip_eq_commit : s.skip = s.commit (s.pc + 4) := rfl
@[simp] theorem jump_eq_commit (t : Word) : s.jump t = s.commit t := rfl
@[simp] theorem stay_eq_commit : s.stay = s.commit s.pc := rfl
@[simp] theorem raiseIn_eq_raise (k : FaultKind) (i : Instr) : s.raiseIn k i = s.raise k (encode i) := rfl

theorem skipIf_eq_commit (c : Bool) : s.skipIf c = s.commit (if c then s.pc + 4 else s.pc + 2) := by
  cases c <;> rfl

/-! ### Registers -/

theorem reg_eq (x : RegIdx) : s.reg x = s.V[x.val] := rfl

/-- Two states with the same register file read the same registers. -/
theorem reg_congr {s t : State} (h : t.V = s.V) (r : RegIdx) : t.reg r = s.reg r := by
  simp only [reg_eq, h]

@[simp] theorem reg_commit (w : Word) (r : RegIdx) : (s.commit w).reg r = s.reg r := rfl
@[simp] theorem reg_raise (k : FaultKind) (w : Word) (r : RegIdx) : (s.raise k w).reg r = s.reg r := rfl
@[simp] theorem reg_present (k : KeyMask) (b : Byte) (r : RegIdx) : (s.present k b).reg r = s.reg r := rfl

@[simp] theorem reg_setReg_self (x : RegIdx) (b : Byte) : (s.setReg x b).reg x = b := by
  simp [reg_eq]

theorem reg_setReg_of_ne {x r : RegIdx} (h : r ≠ x) (b : Byte) : (s.setReg x b).reg r = s.reg r := by
  have : x.val ≠ r.val := fun e => h (Fin.ext e.symm)
  simp [reg_eq, this]

/-- All of what writing a register does to the registers. -/
theorem reg_setReg (x r : RegIdx) (b : Byte) : (s.setReg x b).reg r = if r = x then b else s.reg r := by
  split
  · next h => subst h; simp
  · next h => exact reg_setReg_of_ne s h b

/-- All of what the flag-then-result write does to the registers (R105). -/
theorem reg_setFlagThenReg (x r : RegIdx) (f b : Byte) :
    (s.setFlagThenReg x f b).reg r = if r = x then b else if r = VF then f else s.reg r := by
  simp only [setFlagThenReg, reg_setReg]

/-- All of what the block load does to the registers (R125). -/
theorem reg_setRegsThrough (x r : RegIdx) (f : Nat → Byte) :
    (s.setRegsThrough x f).reg r = if r ≤ x then f r.val else s.reg r := by
  simp [reg_eq]

@[simp] theorem regsThrough_length (x : RegIdx) : (s.regsThrough x).length = x.val + 1 := by
  have := x.isLt
  simp only [regsThrough, List.length_take, Vector.length_toList]
  simp only [Config.numRegs] at this ⊢
  omega

/-- Byte `k` of the run `V0..Vx` is `Vk` (R124). -/
theorem regsThrough_getElem (x : RegIdx) (k : Nat) (h : k < (s.regsThrough x).length) :
    (s.regsThrough x)[k] = s.reg ⟨k, by have := x.isLt; rw [regsThrough_length] at h; omega⟩ := by
  simp [regsThrough, reg_eq]

end Sys2Proof.Machine.State
end

