-- ==== Sys2Proof/Laws/Ops.lean ====
section
/-! SUPPORT. One lemma per shared operation: everything it can do. -/

namespace Sys2Proof.Machine

/-! ### Bounds -/

theorem regIdx_lt (x : RegIdx) : x.val < 16 := x.isLt
theorem key_lt (k : Key) : k.val < 16 := k.isLt
theorem row_lt (r : Fin Config.rows) : r.val < 32 := r.isLt
theorem col_lt (c : Fin Config.cols) : c.val < 64 := c.isLt
theorem depth_le (s : State) : s.depth.val ≤ 16 := Nat.le_of_lt_succ s.depth.isLt

/-! ### The call stack -/

/-- A push on a stack that is not full: the slot at `depth` takes the word, `depth` grows by one, no other slot and no
other element changes (R92). -/
theorem State.push_of_lt (s : State) (w : Word) (h : s.depth.val < 16) :
    s.push w = some { s with stack := s.stack.set s.depth.val w, depth := ⟨s.depth.val + 1, Nat.succ_lt_succ h⟩ } := by
  have h' : s.depth.val < Config.stackSlots := h
  simp [State.push, h']

theorem State.push_of_full (s : State) (w : Word) (h : s.depth.val = 16) : s.push w = none := by
  simp [State.push, h]

/-- A pop of a stack that is not empty: the word at `depth - 1`, and `depth` shrinks by one (R90). -/
theorem State.pop_of_pos (s : State) (h : 0 < s.depth.val) :
    s.pop = some (s.stack[s.depth.val - 1]'(by have := s.depth.isLt; omega),
      { s with depth := ⟨s.depth.val - 1, by have := s.depth.isLt; omega⟩ }) := by
  simp [State.pop, h]

theorem State.pop_of_empty (s : State) (h : s.depth.val = 0) : s.pop = none := by
  simp [State.pop, h]

/-! ### The range check -/

theorem accessLegal_iff (a len : Nat) : accessLegal a len = true ↔ len = 0 ∨ a + len - 1 ≤ 0xFFF := by
  simp [accessLegal]

/-! ### The key latch -/

theorem keyPressed_iff (keys : KeyMask) (v : Byte) :
    keyPressed keys v = true ↔ v.toNat ≤ 15 ∧ keys.getLsbD v.toNat = true := by
  simp only [keyPressed, Bool.and_eq_true, decide_eq_true_eq, Nat.lt_succ_iff]

/-- The lowest key of a mask that holds a key is one of its keys. -/
theorem getLsbD_lowestKey {m : KeyMask} (h : m ≠ 0) : m.getLsbD (lowestKey m).val = true := by
  unfold lowestKey
  cases hf : (List.finRange Config.numKeys).find? fun k => m.getLsbD k.val with
  | some k => simpa using List.find?_some hf
  | none =>
    exfalso
    apply h
    rw [List.find?_eq_none] at hf
    ext i hi
    have := hf ⟨i, hi⟩ (List.mem_finRange _)
    rw [← BitVec.getLsbD_eq_getElem]
    simpa using this

/-- `RELEASE_CHOICE` chooses a member of a set that has one (R166), whatever the free choice is. -/
theorem getLsbD_releaseChoice {m : KeyMask} (h : m ≠ 0) : m.getLsbD (releaseChoice m).val = true := by
  unfold releaseChoice
  split
  · exact getLsbD_lowestKey h
  · split
    · assumption
    · exact getLsbD_lowestKey h

/-- No key was released exactly when every key that was pressed still is (R165). -/
theorem released_mask_eq_zero (p k : KeyMask) :
    p &&& ~~~k = 0 ↔ ∀ i < 16, p.getLsbD i = true → k.getLsbD i = true := by
  constructor
  · intro h i hi hp
    have := congrArg (fun m => BitVec.getLsbD m i) h
    simpa [hp, hi] using this
  · intro h
    ext i hi
    have := h i hi
    simp only [← BitVec.getLsbD_eq_getElem]
    simpa [hi] using this

/-- All of what the edge detector answers: nothing when no key was released, else a released key (R165). -/
theorem edgeDetect_spec (prevKeys keys : KeyMask) :
    (edgeDetect prevKeys keys = none ∧ prevKeys &&& ~~~keys = 0) ∨
      ∃ k : Key, edgeDetect prevKeys keys = some k ∧ prevKeys.getLsbD k.val = true ∧ keys.getLsbD k.val = false := by
  unfold edgeDetect
  split
  · next h => exact .inl ⟨rfl, h⟩
  · next h =>
    refine .inr ⟨_, rfl, ?_⟩
    have := getLsbD_releaseChoice h
    simpa using this

/-! ### The fetch -/

theorem State.fetch_of_le (s : State) (h : s.pc.toNat ≤ 0xFFE) :
    s.fetch = some (wordOfBytes (Memory.read s.mem s.pc.toNat) (Memory.read s.mem (s.pc.toNat + 1))) := by
  have : ¬s.pc.toNat > Config.lastAddr - 1 := by simp only [Config.lastAddr, Config.memSize]; omega
  simp only [State.fetch, this, if_false]

theorem State.fetch_of_gt (s : State) (h : s.pc.toNat > 0xFFE) : s.fetch = none := by
  have : s.pc.toNat > Config.lastAddr - 1 := by simp only [Config.lastAddr, Config.memSize]; omega
  simp only [State.fetch, this, if_true]

end Sys2Proof.Machine
end

