-- ==== Sys2Proof/Laws/Frame.lean ====
section
/-! SUPPORT. The frames of the ways an instruction ends, once: what each leaves of the elements of the state. -/

namespace Sys2Proof.Machine

@[simp] theorem addr16_toNat (nnn : BitVec 12) : (addr16 nnn).toNat = nnn.toNat := by
  have := nnn.isLt
  simp only [addr16, BitVec.toNat_setWidth]
  omega

theorem glyphAddr_toNat (v : Byte) : (glyphAddr v).toNat = v.toNat * 5 := by
  have := v.isLt
  simp only [glyphAddr, Config.glyphSize, BitVec.toNat_ofNat]
  omega

/-- A list of elements may grow. -/
theorem State.keepsAllBut_mono {s t : State} {l l' : List Element} (hl : l ⊆ l') (h : s.keepsAllBut t l) :
    s.keepsAllBut t l' :=
  fun e he => h e fun hm => he (hl hm)

theorem Element.same_refl (e : Element) (s : State) : e.same s s := by
  cases e <;> simp [Element.same]

theorem Element.same_trans (e : Element) {s t u : State} (h : e.same s t) (h' : e.same t u) : e.same s u := by
  cases e <;> simp_all [Element.same]

theorem State.keepsAllBut_trans {s t u : State} {l : List Element} (h : s.keepsAllBut t l) (h' : t.keepsAllBut u l) :
    s.keepsAllBut u l :=
  fun e he => e.same_trans (h e he) (h' e he)

/-- Ending an instruction touches pc and the latch only. -/
theorem State.keepsAllBut_commit (s : State) (w : Word) : s.keepsAllBut (s.commit w) [.pc, .latch] := by
  intro e he
  cases e <;> simp_all [Element.same]

/-- Writing a register and ending. -/
theorem State.keepsAllBut_setReg_commit (s : State) (x : RegIdx) (b : Byte) (w : Word) :
    s.keepsAllBut ((s.setReg x b).commit w) [.reg x, .pc, .latch] := by
  intro e he
  cases e <;> simp_all [Element.same, State.reg_setReg_of_ne]

/-- Writing the flag, then a register, and ending (R105). -/
theorem State.keepsAllBut_setFlagThenReg_commit (s : State) (x : RegIdx) (f b : Byte) (w : Word) :
    s.keepsAllBut ((s.setFlagThenReg x f b).commit w) [.reg VF, .reg x, .pc, .latch] := by
  intro e he
  cases e <;> simp_all [Element.same, State.reg_setFlagThenReg]

/-- Raising a fault touches the fault status and the host's result only (R155). -/
theorem State.keepsAllBut_raise (s : State) (k : FaultKind) (w : Word) :
    s.keepsAllBut (s.raise k w) [.faultStatus, .hostPort] := by
  intro e he
  cases e <;> simp_all [Element.same]

end Sys2Proof.Machine
end

