-- ==== Sys2Proof/Laws/Exec.lean ====
section
/-! SUPPORT. What `exec` answers for the instructions whose meaning has several cases, one equation per case; and what a
step answers, one equation per transaction. Provers cite these instead of unfolding the meanings. -/

namespace Sys2Proof.Machine

/-! ### Control flow -/

theorem exec_ret_of_pos (s : State) (h : 0 < s.depth.val) :
    exec .ret s = .next (({ s with depth := ⟨s.depth.val - 1, by have := s.depth.isLt; omega⟩ } : State).commit
      (s.stack[s.depth.val - 1]'(by have := s.depth.isLt; omega))) := by
  simp [exec, execRet, s.pop_of_pos h]

theorem exec_ret_of_empty (s : State) (h : s.depth.val = 0) :
    exec .ret s = .next (s.raise .callStackUnderflow (encode .ret)) := by
  simp [exec, execRet, s.pop_of_empty h]

theorem exec_call_of_lt (s : State) (nnn : BitVec 12) (h : s.depth.val < 16) :
    exec (.call nnn) s = .next (({ s with
      stack := s.stack.set s.depth.val (s.pc + 2)
      depth := ⟨s.depth.val + 1, Nat.succ_lt_succ h⟩ } : State).commit (addr16 nnn)) := by
  simp [exec, execCall, s.push_of_lt _ h]

theorem exec_call_of_full (s : State) (nnn : BitVec 12) (h : s.depth.val = 16) :
    exec (.call nnn) s = .next (s.raise .callStackOverflow (encode (.call nnn))) := by
  simp [exec, execCall, s.push_of_full _ h]

/-! ### The index register and memory -/

theorem exec_addI_of_le (s : State) (x : RegIdx) (h : s.I.toNat + (s.reg x).toNat ≤ 0xFFFF) :
    exec (.addI x) s = .next (({ s with I := BitVec.ofNat 16 (s.I.toNat + (s.reg x).toNat) } : State).commit
      (s.pc + 2)) := by
  have : ¬s.I.toNat + (s.reg x).toNat > 0xFFFF := by omega
  simp only [exec, execAddI, this, if_false, State.next_eq_commit]

theorem exec_addI_of_gt (s : State) (x : RegIdx) (h : s.I.toNat + (s.reg x).toNat > 0xFFFF) :
    exec (.addI x) s = .next (s.raise .indexOverflow (encode (.addI x))) := by
  simp only [exec, execAddI, h, if_true, State.raiseIn_eq_raise]

theorem storeAtI_of_legal (s : State) (i : Instr) (bytes : List Byte) (h : s.I.toNat + bytes.length ≤ 0x1000) :
    s.storeAtI i bytes =
      ({ s with mem := Memory.writeBytes s.mem s.I.toNat bytes } : State).commit (s.pc + 2) := by
  have : accessLegal s.I.toNat bytes.length = true := by rw [accessLegal_iff]; omega
  simp only [State.storeAtI, this, if_true, State.next_eq_commit]

theorem storeAtI_of_gt (s : State) (i : Instr) (bytes : List Byte) (h0 : 0 < bytes.length)
    (h : s.I.toNat + bytes.length - 1 > 0xFFF) : s.storeAtI i bytes = s.raise .memoryOutOfRange (encode i) := by
  have : accessLegal s.I.toNat bytes.length = false := by
    rw [← Bool.not_eq_true, accessLegal_iff]; omega
  simp [State.storeAtI, this]

@[simp] theorem decimalDigits_length (v : Byte) : (decimalDigits v).length = 3 := by simp [decimalDigits]

theorem exec_ldB_of_legal (s : State) (x : RegIdx) (h : s.I.toNat + 2 ≤ 0xFFF) :
    exec (.ldB x) s = .next
      (({ s with mem := Memory.writeBytes s.mem s.I.toNat (decimalDigits (s.reg x)) } : State).commit (s.pc + 2)) :=
  congrArg Host.Outcome.next (storeAtI_of_legal s _ _ (by simp; omega))

theorem exec_ldB_of_gt (s : State) (x : RegIdx) (h : s.I.toNat + 2 > 0xFFF) :
    exec (.ldB x) s = .next (s.raise .memoryOutOfRange (encode (.ldB x))) :=
  congrArg Host.Outcome.next (storeAtI_of_gt s _ _ (by simp) (by simp; omega))

theorem exec_storeRegs_of_legal (s : State) (x : RegIdx) (h : s.I.toNat + x.val ≤ 0xFFF) :
    exec (.storeRegs x) s = .next
      (({ s with mem := Memory.writeBytes s.mem s.I.toNat (s.regsThrough x) } : State).commit (s.pc + 2)) :=
  congrArg Host.Outcome.next (storeAtI_of_legal s _ _ (by simp; omega))

theorem exec_storeRegs_of_gt (s : State) (x : RegIdx) (h : s.I.toNat + x.val > 0xFFF) :
    exec (.storeRegs x) s = .next (s.raise .memoryOutOfRange (encode (.storeRegs x))) :=
  congrArg Host.Outcome.next (storeAtI_of_gt s _ _ (by simp) (by simp; omega))

theorem exec_loadRegs_of_legal (s : State) (x : RegIdx) (h : s.I.toNat + x.val ≤ 0xFFF) :
    exec (.loadRegs x) s =
      .next ((s.setRegsThrough x fun k => Memory.read s.mem (s.I.toNat + k)).commit (s.pc + 2)) := by
  have : accessLegal s.I.toNat (x.val + 1) = true := by rw [accessLegal_iff]; omega
  simp [exec, execLoadRegs, this]

theorem exec_loadRegs_of_gt (s : State) (x : RegIdx) (h : s.I.toNat + x.val > 0xFFF) :
    exec (.loadRegs x) s = .next (s.raise .memoryOutOfRange (encode (.loadRegs x))) := by
  have : accessLegal s.I.toNat (x.val + 1) = false := by
    rw [← Bool.not_eq_true, accessLegal_iff]; omega
  simp [exec, execLoadRegs, this]

/-! ### The display -/

theorem collisionFlag_eq_one (hit : Bool) : collisionFlag hit = 1 ↔ hit = true := by
  cases hit <;> simp [collisionFlag, flagByte]

theorem collisionFlag_cases (hit : Bool) : collisionFlag hit = 1 ∨ collisionFlag hit = 0 := by
  cases hit <;> simp [collisionFlag, flagByte]

theorem exec_drw_of_legal (s : State) (x y : RegIdx) (n : Nat) (h : n = 0 ∨ s.I.toNat + n - 1 ≤ 0xFFF) :
    exec (.drw x y n) s =
      .next ((({ s with
        disp := (drawRows s.mem s.I.toNat (s.reg x).toNat (s.reg y).toNat n (s.disp, false)).1 } : State).setReg VF
          (collisionFlag (drawRows s.mem s.I.toNat (s.reg x).toNat (s.reg y).toNat n (s.disp, false)).2)).commit
        (s.pc + 2)) := by
  have : accessLegal s.I.toNat n = true := by rw [accessLegal_iff]; exact h
  simp [exec, execDrw, this]

theorem exec_drw_of_gt (s : State) (x y : RegIdx) (n : Nat) (h0 : 0 < n) (h : s.I.toNat + n - 1 > 0xFFF) :
    exec (.drw x y n) s = .next (s.raise .memoryOutOfRange (encode (.drw x y n))) := by
  have : accessLegal s.I.toNat n = false := by
    rw [← Bool.not_eq_true, accessLegal_iff]; omega
  simp [exec, execDrw, this]

/-! ### Every instruction -/

/-- Every instruction answers a next state: it ends by `commit`, with the fault status and the host port as they were, or
it raises a fault of its own word. -/
theorem exec_ends (i : Instr) (s : State) :
    (∃ (u : State) (w : Word), exec i s = .next (u.commit w) ∧ u.status = s.status ∧ u.host = s.host) ∨
      ∃ k, exec i s = .next (s.raise k (encode i)) := by
  cases i with
  | ret =>
    rcases Nat.eq_zero_or_pos s.depth.val with h | h
    · exact .inr ⟨_, exec_ret_of_empty s h⟩
    · exact .inl ⟨_, _, exec_ret_of_pos s h, rfl, rfl⟩
  | call nnn =>
    rcases Nat.lt_or_ge s.depth.val 16 with h | h
    · exact .inl ⟨_, _, exec_call_of_lt s nnn h, rfl, rfl⟩
    · exact .inr ⟨_, exec_call_of_full s nnn (Nat.le_antisymm (depth_le s) h)⟩
  | drw x y n =>
    by_cases h : n = 0 ∨ s.I.toNat + n - 1 ≤ 0xFFF
    · exact .inl ⟨_, _, exec_drw_of_legal s x y n h, rfl, rfl⟩
    · exact .inr ⟨_, exec_drw_of_gt s x y n (by omega) (by omega)⟩
  | ldB x =>
    by_cases h : s.I.toNat + 2 ≤ 0xFFF
    · exact .inl ⟨_, _, exec_ldB_of_legal s x h, rfl, rfl⟩
    · exact .inr ⟨_, exec_ldB_of_gt s x (by omega)⟩
  | storeRegs x =>
    by_cases h : s.I.toNat + x.val ≤ 0xFFF
    · exact .inl ⟨_, _, exec_storeRegs_of_legal s x h, rfl, rfl⟩
    · exact .inr ⟨_, exec_storeRegs_of_gt s x (by omega)⟩
  | loadRegs x =>
    by_cases h : s.I.toNat + x.val ≤ 0xFFF
    · exact .inl ⟨_, _, exec_loadRegs_of_legal s x h, rfl, rfl⟩
    · exact .inr ⟨_, exec_loadRegs_of_gt s x (by omega)⟩
  | addI x =>
    by_cases h : s.I.toNat + (s.reg x).toNat ≤ 0xFFFF
    · exact .inl ⟨_, _, exec_addI_of_le s x h, rfl, rfl⟩
    · exact .inr ⟨_, exec_addI_of_gt s x (by omega)⟩
  | ldVxK x =>
    cases h : s.released with
    | none => exact .inl ⟨s, s.pc, by simp [exec, execLdVxK, h], rfl, rfl⟩
    | some k =>
      exact .inl ⟨s.setReg x (BitVec.ofNat 8 k.val), s.pc + 2,
        by simp only [exec, execLdVxK, h, State.next_eq_commit, State.setReg_pc], rfl, rfl⟩
  | seImm x kk => exact .inl ⟨s, _, congrArg _ (s.skipIf_eq_commit _), rfl, rfl⟩
  | sneImm x kk => exact .inl ⟨s, _, congrArg _ (s.skipIf_eq_commit _), rfl, rfl⟩
  | seReg x y => exact .inl ⟨s, _, congrArg _ (s.skipIf_eq_commit _), rfl, rfl⟩
  | skp x => exact .inl ⟨s, _, congrArg _ (s.skipIf_eq_commit _), rfl, rfl⟩
  | sknp x => exact .inl ⟨s, _, congrArg _ (s.skipIf_eq_commit _), rfl, rfl⟩
  | _ => exact .inl ⟨_, _, rfl, rfl, rfl⟩

/-! ### A step -/

theorem onBlock_of_exists (f : State → Result) (s : State) (h : s.host.blockExists = true) : onBlock f s = f s := by
  simp only [onBlock, h, if_true]

theorem onBlock_of_none (f : State → Result) (s : State) (h : s.host.blockExists = false) :
    onBlock f s = .fault .noBlock := by
  simp [onBlock, h]

/-- A LOAD that fits leaves the block of R180 at the host port (R163). -/
theorem loadTx_of_some (font : Vector Byte Config.fontSize) (image : List Byte) (s b : State)
    (h : State.load font image = some b) :
    loadTx font image s = { b with host := { s.host with result := .ok, blockExists := true } } := by
  simp only [loadTx, h]

/-- A LOAD that does not fit touches the host port only (R181). -/
theorem loadTx_of_none (font : Vector Byte Config.fontSize) (image : List Byte) (s : State)
    (h : State.load font image = none) :
    loadTx font image s = { s with host := { s.host with result := .programTooLarge, blockExists := false } } := by
  simp only [loadTx, h]

theorem step_tick (s : State) (rest : List HostTx) (hb : s.host.blockExists = true)
    (h : s.host.pending = .tick :: rest) :
    step s = .next (tick { s with host := { s.host with pending := rest } }) := by
  simp only [step, nextTx, h, performTx, onBlock, hb, if_true]

theorem step_load (s : State) (font : Vector Byte Config.fontSize) (image : List Byte) (rest : List HostTx)
    (h : s.host.pending = .load font image :: rest) :
    step s = .next (loadTx font image { s with host := { s.host with pending := rest } }) := by
  simp only [step, nextTx, h, performTx]

/-- Where no block exists only a LOAD can be performed. -/
theorem step_of_noBlock (s : State) (hb : s.host.blockExists = false)
    (hl : ∀ font image rest, s.host.pending ≠ .load font image :: rest) : step s = .fault .noBlock := by
  simp only [step, nextTx]
  split
  · exact onBlock_of_none _ _ hb
  · rename_i tx rest h
    cases tx with
    | load font image => exact absurd h (hl font image rest)
    | step keys rnd => exact onBlock_of_none _ _ hb
    | tick => simp only [performTx, onBlock, hb, Bool.false_eq_true, if_false]

/-- A step whose transaction is a STEP runs it from the state the STEP starts from. -/
theorem step_of_stepEntry (s u : State) (h : s.stepEntry = some u) : step s = runStep u := by
  unfold State.stepEntry at h
  split at h
  · cases h
  · rename_i hb
    simp only [Bool.not_eq_false] at hb
    simp only [step, nextTx]
    split at h <;> rename_i hp <;> simp only [hp, Option.some.injEq, reduceCtorEq] at h ⊢
    · subst h; simp only [onBlock_of_exists _ _ hb, freeStep, stepTx, hp]
    · subst h; exact onBlock_of_exists _ _ hb

/-- A STEP is of a block that exists. -/
theorem blockExists_of_stepEntry (s u : State) (h : s.stepEntry = some u) : s.host.blockExists = true := by
  unfold State.stepEntry at h
  split at h
  · cases h
  · rename_i hb
    simpa using hb

/-- The state a STEP starts from differs at the host port only. -/
theorem stepEntry_eq (s u : State) (h : s.stepEntry = some u) : ∃ p, u = { s with host := p } := by
  unfold State.stepEntry at h
  split at h
  · cases h
  · split at h <;> simp only [Option.some.injEq, reduceCtorEq] at h
    · exact ⟨_, h.symm⟩
    · exact ⟨_, h.symm⟩

/-- All of what a STEP of a running block answers (R80, R154). -/
theorem runStep_cases (s : State) (h : s.status.halted = false) :
    (s.pc.toNat > 0xFFE ∧ runStep s = .next (s.raise .pcOutOfRange 0)) ∨
    (∃ w, s.fetch = some w ∧ decodeWord w = none ∧ runStep s = .next (s.raise .invalidOpcode w)) ∨
    (∃ w i, s.fetch = some w ∧ decodeWord w = some i ∧ runStep s = exec i s) := by
  by_cases hpc : s.pc.toNat > 0xFFE
  · exact .inl ⟨hpc, by simp [runStep, h, s.fetch_of_gt hpc]⟩
  · have hf := s.fetch_of_le (by omega)
    cases hd : decodeWord (wordOfBytes (Memory.read s.mem s.pc.toNat) (Memory.read s.mem (s.pc.toNat + 1))) with
    | none => exact .inr (.inl ⟨_, hf, hd, by simp [runStep, h, hf, hd]⟩)
    | some i => exact .inr (.inr ⟨_, i, hf, hd, by simp [runStep, h, hf, hd]⟩)

/-- A STEP of a halted block (R89). -/
theorem runStep_of_halted (s : State) (h : s.status.halted = true) : runStep s = .next s.answerHalted := by
  simp [runStep, h]

/-- What a step that answers a next state can have been: a LOAD, fitting or not; a TICK; a STEP of a halted block; the raising of a fault
before execution; or the execution of the decoded word. `p` is the host port the STEP starts from. -/
theorem step_cases (s t : State) (h : step s = .next t) :
    (∃ font image rest, s.host.pending = .load font image :: rest ∧
      t = loadTx font image { s with host := { s.host with pending := rest } }) ∨
    (∃ rest, s.host.pending = .tick :: rest ∧ t = tick { s with host := { s.host with pending := rest } }) ∨
    (∃ p, s.stepEntry = some { s with host := p } ∧
      ((s.status.halted = true ∧ t = State.answerHalted { s with host := p }) ∨
      (s.status.halted = false ∧ s.pc.toNat > 0xFFE ∧ t = State.raise { s with host := p } .pcOutOfRange 0) ∨
      (s.status.halted = false ∧ ∃ w, s.fetch = some w ∧ decodeWord w = none ∧
        t = State.raise { s with host := p } .invalidOpcode w) ∨
      (s.status.halted = false ∧ ∃ w i, s.fetch = some w ∧ decodeWord w = some i ∧
        exec i { s with host := p } = .next t))) := by
  cases hu : s.stepEntry with
  | none =>
    by_cases hl : ∃ font image rest, s.host.pending = .load font image :: rest
    · obtain ⟨font, image, rest, hp⟩ := hl
      rw [step_load s font image rest hp] at h
      cases h
      exact .inl ⟨_, _, _, hp, rfl⟩
    · cases hb : s.host.blockExists with
      | false =>
        rw [step_of_noBlock s hb fun font image rest hp => hl ⟨font, image, rest, hp⟩] at h
        cases h
      | true =>
        simp only [State.stepEntry, hb, Bool.true_eq_false, if_false] at hu
        split at hu <;> rename_i hp
        · cases hu
        · cases hu
        · exact absurd ⟨_, _, _, hp⟩ hl
        · rw [step_tick s _ hb hp] at h
          cases h
          exact .inr (.inl ⟨_, hp, rfl⟩)
  | some u =>
    obtain ⟨p, rfl⟩ := stepEntry_eq s u hu
    rw [step_of_stepEntry s _ hu] at h
    cases hh : s.status.halted with
    | true =>
      rw [runStep_of_halted _ (by exact hh)] at h
      cases h
      exact .inr (.inr ⟨p, rfl, .inl ⟨rfl, rfl⟩⟩)
    | false =>
      rcases runStep_cases ({ s with host := p } : State) hh with ⟨h1, h2⟩ | ⟨w, h1, h2, h3⟩ | ⟨w, i, h1, h2, h3⟩
      · rw [h2] at h
        cases h
        exact .inr (.inr ⟨p, rfl, .inr (.inl ⟨rfl, h1, rfl⟩)⟩)
      · rw [h3] at h
        cases h
        exact .inr (.inr ⟨p, rfl, .inr (.inr (.inl ⟨rfl, w, h1, h2, rfl⟩))⟩)
      · exact .inr (.inr ⟨p, rfl, .inr (.inr (.inr ⟨rfl, w, i, h1, h2, by rw [← h3, h]⟩))⟩)

/-- A run goes on from the state its first step answers. -/
theorem run_succ_of_step {s t : State} (k : Nat) (h : step s = .next t) :
    Host.Core.run Sys2Proof.core (k + 1) s = Host.Core.run Sys2Proof.core k t := by
  have h' : Sys2Proof.core.step s = .next t := h
  simp only [Host.Core.run, h']

/-- One timer's countdown, as a number (R161). -/
theorem countdown_toNat (b : Byte) : (countdown b).toNat = b.toNat - 1 := by
  have := b.isLt
  unfold countdown
  split
  · simp [BitVec.toNat_sub]
    omega
  · simp
    omega

end Sys2Proof.Machine
end

