-- ==== Sys2Proof/Laws/PerInstr.lean ====
section
/-! SUPPORT. Per instruction: its word stands in its row of the opcode map (30_encoding.md rule R65), that is, the bits
its row fixes are as the row says, whatever the operands. -/

namespace Sys2Proof.Laws.OpcodeRow

/-- `w & mask == match` for the word of the instruction and its row of R65. -/
def Statement (i : Instr) : Prop := i.row.accepts (encode i) = true

theorem cls : Statement .cls := rfl
theorem ret : Statement .ret := rfl

theorem jp (nnn : BitVec 12) : Statement (.jp nnn) := by
  simp [Statement, Instr.row, OpcodeRow.accepts, encode, encA_mask, place]

theorem call (nnn : BitVec 12) : Statement (.call nnn) := by
  simp [Statement, Instr.row, OpcodeRow.accepts, encode, encA_mask, place]

theorem seImm (x : RegIdx) (kk : Byte) : Statement (.seImm x kk) := by
  simp [Statement, Instr.row, OpcodeRow.accepts, encode, encXK_mask, place]

theorem sneImm (x : RegIdx) (kk : Byte) : Statement (.sneImm x kk) := by
  simp [Statement, Instr.row, OpcodeRow.accepts, encode, encXK_mask, place]

theorem seReg (x y : RegIdx) : Statement (.seReg x y) := by
  simp [Statement, Instr.row, OpcodeRow.accepts, encode, encXY_mask, place]

theorem ldImm (x : RegIdx) (kk : Byte) : Statement (.ldImm x kk) := by
  simp [Statement, Instr.row, OpcodeRow.accepts, encode, encXK_mask, place]

theorem addImm (x : RegIdx) (kk : Byte) : Statement (.addImm x kk) := by
  simp [Statement, Instr.row, OpcodeRow.accepts, encode, encXK_mask, place]

theorem ldReg (x y : RegIdx) : Statement (.ldReg x y) := by
  simp [Statement, Instr.row, OpcodeRow.accepts, encode, encXY_mask, place]

theorem andReg (x y : RegIdx) : Statement (.andReg x y) := by
  simp [Statement, Instr.row, OpcodeRow.accepts, encode, encXY_mask, place]

theorem xorReg (x y : RegIdx) : Statement (.xorReg x y) := by
  simp [Statement, Instr.row, OpcodeRow.accepts, encode, encXY_mask, place]

theorem addReg (x y : RegIdx) : Statement (.addReg x y) := by
  simp [Statement, Instr.row, OpcodeRow.accepts, encode, encXY_mask, place]

theorem subReg (x y : RegIdx) : Statement (.subReg x y) := by
  simp [Statement, Instr.row, OpcodeRow.accepts, encode, encXY_mask, place]

theorem ldI (nnn : BitVec 12) : Statement (.ldI nnn) := by
  simp [Statement, Instr.row, OpcodeRow.accepts, encode, encA_mask, place]

theorem rnd (x : RegIdx) (kk : Byte) : Statement (.rnd x kk) := by
  simp [Statement, Instr.row, OpcodeRow.accepts, encode, encXK_mask, place]

theorem drw (x y : RegIdx) (n : Nat) : Statement (.drw x y n) := by
  simp [Statement, Instr.row, OpcodeRow.accepts, encode, encXYN_mask, place]

theorem skp (x : RegIdx) : Statement (.skp x) := by
  simp [Statement, Instr.row, OpcodeRow.accepts, encode, encXS_mask, place]

theorem sknp (x : RegIdx) : Statement (.sknp x) := by
  simp [Statement, Instr.row, OpcodeRow.accepts, encode, encXS_mask, place]

theorem ldVxDt (x : RegIdx) : Statement (.ldVxDt x) := by
  simp [Statement, Instr.row, OpcodeRow.accepts, encode, encXS_mask, place]

theorem ldVxK (x : RegIdx) : Statement (.ldVxK x) := by
  simp [Statement, Instr.row, OpcodeRow.accepts, encode, encXS_mask, place]

theorem ldDtVx (x : RegIdx) : Statement (.ldDtVx x) := by
  simp [Statement, Instr.row, OpcodeRow.accepts, encode, encXS_mask, place]

theorem ldStVx (x : RegIdx) : Statement (.ldStVx x) := by
  simp [Statement, Instr.row, OpcodeRow.accepts, encode, encXS_mask, place]

theorem addI (x : RegIdx) : Statement (.addI x) := by
  simp [Statement, Instr.row, OpcodeRow.accepts, encode, encXS_mask, place]

theorem ldF (x : RegIdx) : Statement (.ldF x) := by
  simp [Statement, Instr.row, OpcodeRow.accepts, encode, encXS_mask, place]

theorem ldB (x : RegIdx) : Statement (.ldB x) := by
  simp [Statement, Instr.row, OpcodeRow.accepts, encode, encXS_mask, place]

theorem storeRegs (x : RegIdx) : Statement (.storeRegs x) := by
  simp [Statement, Instr.row, OpcodeRow.accepts, encode, encXS_mask, place]

theorem loadRegs (x : RegIdx) : Statement (.loadRegs x) := by
  simp [Statement, Instr.row, OpcodeRow.accepts, encode, encXS_mask, place]

end Sys2Proof.Laws.OpcodeRow
end

