-- ==== Sys2Proof/Tests/Slice0.lean ====
section
/-! SUPPORT. Tests: the decoding of one word of every row of the opcode map, written out bit by bit from 30_encoding.md
rules R61 and R65; the ill-formed terms; one or two steps per instruction with the outcome that 95_test_vectors.md gives
(the vector's id stands in each docstring); and, for every obligation with hypotheses, states and operands that meet
them. -/

namespace Sys2Proof.Tests

open Sys2Proof Sys2Proof.Machine

/-! ### Well-formedness -/

/-- R63: `n` is 0 to 15; the check refuses 16 and accepts 15. -/
theorem test_wf_refuses_sixteen_rows : (Instr.drw 0 0 16).wf = false ∧ (Instr.drw 0 0 15).wf = true := by decide

theorem test_rowCountOk_bounds : rowCountOk 16 = false ∧ rowCountOk 15 = true ∧ rowCountOk 0 = true := by decide

/-! ### Decoding, bit by bit -/

/-- R65 row 1, 00E0. -/
theorem test_decode_cls :
    decodeWord 0b0000_0000_1110_0000 = some (.cls) ∧ encode (.cls) = 0b0000_0000_1110_0000 := by decide

/-- R65 row 2, 00EE. -/
theorem test_decode_ret :
    decodeWord 0b0000_0000_1110_1110 = some (.ret) ∧ encode (.ret) = 0b0000_0000_1110_1110 := by decide

/-- R65 row 3, 1nnn: nnn = 234. -/
theorem test_decode_jp :
    decodeWord 0b0001_0010_0011_0100 = some (.jp 0x234) ∧ encode (.jp 0x234) = 0b0001_0010_0011_0100 := by decide

/-- R65 row 4, 2nnn: nnn = ABC. -/
theorem test_decode_call :
    decodeWord 0b0010_1010_1011_1100 = some (.call 0xABC) ∧ encode (.call 0xABC) = 0b0010_1010_1011_1100 := by decide

/-- R65 row 5, 3xkk: x = 3, kk = 16. -/
theorem test_decode_seImm :
    decodeWord 0b0011_0011_0001_0110 = some (.seImm 3 0x16) ∧
      encode (.seImm 3 0x16) = 0b0011_0011_0001_0110 := by decide

/-- R65 row 6, 4xkk: x = 5, kk = 81. -/
theorem test_decode_sneImm :
    decodeWord 0b0100_0101_1000_0001 = some (.sneImm 5 0x81) ∧
      encode (.sneImm 5 0x81) = 0b0100_0101_1000_0001 := by decide

/-- R65 row 7, 5xy0: x = 1, y = 2. -/
theorem test_decode_seReg :
    decodeWord 0b0101_0001_0010_0000 = some (.seReg 1 2) ∧ encode (.seReg 1 2) = 0b0101_0001_0010_0000 := by decide

/-- R65 row 8, 6xkk: x = E, kk = 05. -/
theorem test_decode_ldImm :
    decodeWord 0b0110_1110_0000_0101 = some (.ldImm 14 0x05) ∧
      encode (.ldImm 14 0x05) = 0b0110_1110_0000_0101 := by decide

/-- R65 row 9, 7xkk: x = 1, kk = 02. -/
theorem test_decode_addImm :
    decodeWord 0b0111_0001_0000_0010 = some (.addImm 1 0x02) ∧
      encode (.addImm 1 0x02) = 0b0111_0001_0000_0010 := by decide

/-- R65 row 10, 8xy0: x = 1, y = 2. -/
theorem test_decode_ldReg :
    decodeWord 0b1000_0001_0010_0000 = some (.ldReg 1 2) ∧ encode (.ldReg 1 2) = 0b1000_0001_0010_0000 := by decide

/-- R65 row 11, 8xy2: x = C, y = 3. -/
theorem test_decode_andReg :
    decodeWord 0b1000_1100_0011_0010 = some (.andReg 12 3) ∧ encode (.andReg 12 3) = 0b1000_1100_0011_0010 := by decide

/-- R65 row 12, 8xy3: x = 1, y = E. -/
theorem test_decode_xorReg :
    decodeWord 0b1000_0001_1110_0011 = some (.xorReg 1 14) ∧ encode (.xorReg 1 14) = 0b1000_0001_1110_0011 := by decide

/-- R65 row 13, 8xy4: x = F, y = 1. -/
theorem test_decode_addReg :
    decodeWord 0b1000_1111_0001_0100 = some (.addReg 15 1) ∧ encode (.addReg 15 1) = 0b1000_1111_0001_0100 := by decide

/-- R65 row 14, 8xy5: x = 0, y = F. -/
theorem test_decode_subReg :
    decodeWord 0b1000_0000_1111_0101 = some (.subReg 0 15) ∧ encode (.subReg 0 15) = 0b1000_0000_1111_0101 := by decide

/-- R65 row 15, Annn: nnn = 301. -/
theorem test_decode_ldI :
    decodeWord 0b1010_0011_0000_0001 = some (.ldI 0x301) ∧ encode (.ldI 0x301) = 0b1010_0011_0000_0001 := by decide

/-- R65 row 16, Cxkk: x = 3, kk = 0F. -/
theorem test_decode_rnd :
    decodeWord 0b1100_0011_0000_1111 = some (.rnd 3 0x0F) ∧ encode (.rnd 3 0x0F) = 0b1100_0011_0000_1111 := by decide

/-- R65 row 17, Dxyn: x = 2, y = 3, n = 5. -/
theorem test_decode_drw :
    decodeWord 0b1101_0010_0011_0101 = some (.drw 2 3 5) ∧ encode (.drw 2 3 5) = 0b1101_0010_0011_0101 := by decide

/-- R65 row 18, Ex9E: x = 2. -/
theorem test_decode_skp :
    decodeWord 0b1110_0010_1001_1110 = some (.skp 2) ∧ encode (.skp 2) = 0b1110_0010_1001_1110 := by decide

/-- R65 row 19, ExA1: x = 4. -/
theorem test_decode_sknp :
    decodeWord 0b1110_0100_1010_0001 = some (.sknp 4) ∧ encode (.sknp 4) = 0b1110_0100_1010_0001 := by decide

/-- R65 row 20, Fx07: x = 3. -/
theorem test_decode_ldVxDt :
    decodeWord 0b1111_0011_0000_0111 = some (.ldVxDt 3) ∧ encode (.ldVxDt 3) = 0b1111_0011_0000_0111 := by decide

/-- R65 row 21, Fx0A: x = 8. -/
theorem test_decode_ldVxK :
    decodeWord 0b1111_1000_0000_1010 = some (.ldVxK 8) ∧ encode (.ldVxK 8) = 0b1111_1000_0000_1010 := by decide

/-- R65 row 22, Fx15: x = 1. -/
theorem test_decode_ldDtVx :
    decodeWord 0b1111_0001_0001_0101 = some (.ldDtVx 1) ∧ encode (.ldDtVx 1) = 0b1111_0001_0001_0101 := by decide

/-- R65 row 23, Fx18: x = 7. -/
theorem test_decode_ldStVx :
    decodeWord 0b1111_0111_0001_1000 = some (.ldStVx 7) ∧ encode (.ldStVx 7) = 0b1111_0111_0001_1000 := by decide

/-- R65 row 24, Fx1E: x = 2. -/
theorem test_decode_addI :
    decodeWord 0b1111_0010_0001_1110 = some (.addI 2) ∧ encode (.addI 2) = 0b1111_0010_0001_1110 := by decide

/-- R65 row 25, Fx29: x = 4. -/
theorem test_decode_ldF :
    decodeWord 0b1111_0100_0010_1001 = some (.ldF 4) ∧ encode (.ldF 4) = 0b1111_0100_0010_1001 := by decide

/-- R65 row 26, Fx33: x = 6. -/
theorem test_decode_ldB :
    decodeWord 0b1111_0110_0011_0011 = some (.ldB 6) ∧ encode (.ldB 6) = 0b1111_0110_0011_0011 := by decide

/-- R65 row 27, Fx55: x = F. -/
theorem test_decode_storeRegs :
    decodeWord 0b1111_1111_0101_0101 = some (.storeRegs 15) ∧
      encode (.storeRegs 15) = 0b1111_1111_0101_0101 := by decide

/-- R65 row 28, Fx65: x = D. -/
theorem test_decode_loadRegs :
    decodeWord 0b1111_1101_0110_0101 = some (.loadRegs 13) ∧ encode (.loadRegs 13) = 0b1111_1101_0110_0101 := by decide

/-- R42, R82: the byte at the lower address is the high one. -/
theorem test_decode_big_endian : decode [0x12, 0x34, 0x56] = .instr (.jp 0x234) [0x56] := by decide

/-- D-DEC-1 to D-DEC-5. -/
theorem test_decode_invalid_words : decodeWord 0x0000 = none ∧ decodeWord 0x0123 = none ∧ decodeWord 0x00E1 = none ∧
    decodeWord 0x5121 = none ∧ decodeWord 0x8121 = none ∧ decodeWord 0x8126 = none ∧ decodeWord 0x812E = none := by
  decide

/-- D-DEC-7 to D-DEC-10. -/
theorem test_decode_invalid_families : decodeWord 0x9120 = none ∧ decodeWord 0xB123 = none ∧ decodeWord 0xE19F = none ∧
    decodeWord 0xE1A2 = none ∧ decodeWord 0xF1FF = none ∧ decodeWord 0xF108 = none ∧ decodeWord 0xF130 = none := by
  decide

/-- One byte is no instruction (R60). -/
theorem test_decode_truncated : decode [0x12] = .rejected .truncated := by decide

/-! ### One step -/

/-- The state at a pc of 0x200 with a word there and one STEP pending. -/
def stepAt (w : Nat) (keys : KeyMask) (rnd : Byte) (s : State) : Result :=
  step { s.withFetchWord 16 w with host := { HostPort.idle with pending := [.step keys rnd] } }

/-- One STEP of a word with no key pressed. -/
def run (w : Nat) (s : State) : Result := stepAt w 0 0 s

/-- What a next state shows. -/
def look {α : Type} (r : Result) (f : State → α) : Option α :=
  match r with
  | .next t => some (f t)
  | .fault _ => none
  | .refused _ => none

/-- The reset state with bytes in some registers. -/
def withRegs (l : List (RegIdx × Byte)) : State := l.foldl (fun s p => s.setReg p.1 p.2) State.reset

/-- The reset state with one register and I set. -/
def withI (i : Word) (l : List (RegIdx × Byte)) : State := { withRegs l with I := i }

/-- The reset state with `n` slots of the stack occupied by 0x0206. -/
def withDepth (n : Fin (Config.stackSlots + 1)) : State :=
  { State.reset with stack := Vector.replicate Config.stackSlots 0x0206, depth := n }

/-- The reset state with a previous pressed set. -/
def withPrev (p : KeyMask) : State := { State.reset with prevKeys := p }

/-- A halted block. -/
def stopped : State := { State.reset with status := ⟨true, 1, 0, 0x200⟩, DT := 5 }

/-- D-CF-1. -/
theorem test_ret : look (run 0x00EE { withDepth 1 with pc := 0x210 }) (fun t => (t.pc, t.depth.val)) =
    some (0x206, 0) := by decide

/-- D-CF-2, S9. -/
theorem test_ret_empty : look (run 0x00EE State.reset) (fun t => (t.status, t.host.result)) =
    some (⟨true, 3, 0x00EE, 0x200⟩, .fault .callStackUnderflow 0x00EE 0x200) := by decide

/-- D-CF-3. -/
theorem test_jp : look (run 0x1234 State.reset) State.pc = some 0x234 := by decide

/-- D-CF-4. -/
theorem test_call : look (run 0x2210 { State.reset with pc := 0x204 }) (fun t => (t.stack[0], t.depth.val, t.pc)) =
    some (0x0206, 1, 0x210) := by decide

/-- D-CF-12. -/
theorem test_call_full : look (run 0x2400 (withDepth 16)) (fun t => (t.status, t.depth.val, t.pc)) =
    some (⟨true, 2, 0x2400, 0x200⟩, 16, 0x200) := by decide

/-- D-CF-5, D-CF-6. -/
theorem test_seImm : look (run 0x3310 (withRegs [(3, 0x10)])) State.pc = some 0x204 ∧
    look (run 0x3311 (withRegs [(3, 0x10)])) State.pc = some 0x202 := by decide

/-- D-CF-7, D-CF-8. -/
theorem test_sneImm : look (run 0x4311 (withRegs [(3, 0x10)])) State.pc = some 0x204 ∧
    look (run 0x4310 (withRegs [(3, 0x10)])) State.pc = some 0x202 := by decide

/-- D-CF-9, D-CF-10, D-CF-11. -/
theorem test_seReg : look (run 0x5120 (withRegs [(1, 7), (2, 7)])) State.pc = some 0x204 ∧
    look (run 0x5120 (withRegs [(1, 7), (2, 8)])) State.pc = some 0x202 ∧
    look (run 0x5110 (withRegs [(1, 9)])) State.pc = some 0x204 := by decide

/-- D-ALU-1. -/
theorem test_ldImm : look (run 0x6005 State.reset) (fun t => (t.reg 0, t.pc)) = some (0x05, 0x202) := by decide

/-- D-ALU-3. -/
theorem test_addImm_wraps : look (run 0x7102 (withRegs [(1, 0xFF)])) (fun t => (t.reg 1, t.reg VF)) =
    some (0x01, 0x00) := by decide

/-- D-ALU-12. -/
theorem test_addImm_to_VF : look (run 0x7FFF (withRegs [(15, 1)])) (fun t => t.reg VF) = some 0x00 := by decide

/-- D-ALU-5. -/
theorem test_ldReg : look (run 0x8120 (withRegs [(2, 0x7A)])) (fun t => t.reg 1) = some 0x7A := by decide

/-- D-ALU-9. -/
theorem test_andReg : look (run 0x8122 (withRegs [(1, 0xF0), (2, 0x3C), (15, 1)])) (fun t => (t.reg 1, t.reg VF)) =
    some (0x30, 0x01) := by decide

/-- D-ALU-7. -/
theorem test_xorReg : look (run 0x8123 (withRegs [(1, 0xF0), (2, 0x3C)])) (fun t => t.reg 1) = some 0xCC := by decide

/-- D-ALU-10, D-ALU-11. -/
theorem test_addReg_carry : look (run 0x8014 (withRegs [(0, 0x80), (1, 0x80)])) (fun t => (t.reg 0, t.reg VF)) =
      some (0x00, 0x01) ∧
    look (run 0x8014 (withRegs [(0, 0xFF), (1, 0x00)])) (fun t => (t.reg 0, t.reg VF)) = some (0xFF, 0x00) := by decide

/-- D-ALU-13, D-ALU-15. -/
theorem test_addReg_with_VF : look (run 0x8F14 (withRegs [(15, 0xF0), (1, 0x20)])) (fun t => t.reg VF) = some 0x10 ∧
    look (run 0x80F4 (withRegs [(0, 0xFF), (15, 1)])) (fun t => (t.reg 0, t.reg VF)) = some (0x00, 0x01) := by decide

/-- D-ALU-16, D-ALU-17. -/
theorem test_subReg_strict : look (run 0x8015 (withRegs [(0, 0x42), (1, 0x42)])) (fun t => (t.reg 0, t.reg VF)) =
      some (0x00, 0x00) ∧
    look (run 0x8015 (withRegs [(0, 0x00), (1, 0x01)])) (fun t => (t.reg 0, t.reg VF)) = some (0xFF, 0x00) := by decide

/-- D-ALU-20, D-ALU-21. -/
theorem test_subReg_with_VF : look (run 0x8F05 (withRegs [(15, 0x30), (0, 0x10)])) (fun t => t.reg VF) = some 0x20 ∧
    look (run 0x80F5 (withRegs [(0, 5), (15, 1)])) (fun t => (t.reg 0, t.reg VF)) = some (0x04, 0x01) := by decide

/-- D-ALU-25. -/
theorem test_rnd : look (stepAt 0xC30F 0 0xB7 State.reset) (fun t => t.reg 3) = some 0x07 := by decide

/-- D-MEM-1. -/
theorem test_ldI : look (run 0xA300 State.reset) State.I = some 0x0300 := by decide

/-- D-MEM-2, D-MEM-3. -/
theorem test_addI : look (run 0xF21E (withI 0x0FFF [(2, 2)])) State.I = some 0x1001 ∧
    look (run 0xF01E (withI 0xFF00 [(0, 0xFF)])) State.I = some 0xFFFF := by decide

/-- D-MEM-4. -/
theorem test_addI_overflow : look (run 0xF01E (withI 0xFFFF [(0, 1)])) (fun t => (t.status, t.I)) =
    some (⟨true, 7, 0xF01E, 0x200⟩, 0xFFFF) := by decide

/-- D-MEM-5, D-MEM-6. -/
theorem test_ldF : look (run 0xF429 (withRegs [(4, 0x0A)])) State.I = some 0x0032 ∧
    look (run 0xF029 (withRegs [(0, 0xFF)])) State.I = some 0x04FB := by decide

/-- D-MEM-10. -/
theorem test_ldB : look (run 0xF033 (withI 0x0FFD [(0, 0x7B)]))
      (fun t => [0xFFD, 0xFFE, 0xFFF].map (Memory.read t.mem)) = some [1, 2, 3] := by decide

/-- D-MEM-11. -/
theorem test_ldB_past_memory : look (run 0xF033 (withI 0x0FFE [(0, 1)])) (fun t => (t.status, Memory.read t.mem 0xFFE)) =
    some (⟨true, 5, 0xF033, 0x200⟩, 0) := by decide

/-- D-MEM-12. -/
theorem test_storeRegs : look (run 0xF155 (withI 0x0400 [(0, 1), (1, 2), (2, 3)]))
      (fun t => ([0x400, 0x401, 0x402].map (Memory.read t.mem), t.I)) = some ([1, 2, 0], 0x0400) := by decide

/-- D-MEM-14. -/
theorem test_storeRegs_past_memory : look (run 0xFF55 (withI 0x0FF1 [(0, 9)]))
      (fun t => (t.status.fcode, Memory.read t.mem 0xFF1)) = some (5, 0) := by decide

/-- D-MEM-16. -/
theorem test_loadRegs : look (run 0xF265 { withI 0x0300 [(3, 7)] with mem := Memory.writeBytes [] 0x300 [2, 5, 4, 8] })
      (fun t => [0, 1, 2, 3].map t.reg) = some [2, 5, 4, 7] := by decide

/-- D-MEM-18. -/
theorem test_loadRegs_past_memory : look (run 0xF065 (withI 0x1000 [])) State.status =
    some ⟨true, 5, 0xF065, 0x200⟩ := by decide

/-- Some pixels, named by row and column. -/
def pixels (s : State) (l : List (Nat × Nat)) : List Bool := l.map fun p => s.disp.get (wrapRow p.1) (wrapCol p.2)

/-- D-DSP-9. -/
theorem test_cls : look (run 0x00E0 { withRegs [(15, 1)] with disp := Display.off.flip 3 4 })
      (fun t => (pixels t [(3, 4), (0, 0)], t.reg VF)) = some ([false, false], 1) := by decide

/-- D-DSP-3 and D-DSP-4 in one sprite: two rows 0xFF, 0x80 at column 63, row 31 wrap per axis. -/
theorem test_drw_wraps_per_axis :
    look (run 0xD012 { withI 0x300 [(0, 0x3F), (1, 0x1F)] with mem := Memory.writeBytes [] 0x300 [0xFF, 0x80] })
      (fun t => (pixels t [(31, 63), (31, 0), (31, 6), (31, 7), (0, 63), (0, 0), (1, 63)], t.reg VF)) =
    some ([true, true, true, false, true, false, false], 0) := by decide

/-- D-DSP-10, D-DSP-2: the column is the old VF and the flag is written last; a pixel that was on goes off and sets it. -/
theorem test_drw_column_VF :
    look (run 0xDF01 { withI 0x300 [(15, 5)] with mem := Memory.writeBytes [] 0x300 [0x80] })
      (fun t => (pixels t [(0, 5), (0, 0)], t.reg VF)) = some ([true, false], 0) ∧
    look (run 0xDF01 { withI 0x300 [(15, 5)] with
        mem := Memory.writeBytes [] 0x300 [0x80], disp := Display.off.flip 0 5 })
      (fun t => (pixels t [(0, 5)], t.reg VF)) = some ([false], 1) := by decide

/-- D-TMR-1. -/
theorem test_ldVxDt : look (run 0xF307 { State.reset with DT := 0x3C }) (fun t => t.reg 3) = some 0x3C := by decide

/-- D-TMR-2. -/
theorem test_ldDtVx : look (run 0xF015 (withRegs [(0, 7)])) (fun t => (t.DT, t.ST)) = some (7, 0) := by decide

/-- D-TMR-3. -/
theorem test_ldStVx : look (run 0xF118 (withRegs [(1, 2)])) (fun t => (t.ST, t.DT, t.soundActive)) =
    some (2, 0, true) := by decide

/-- D-KEY-1, D-KEY-2, D-KEY-4. -/
theorem test_skp : look (stepAt 0xE29E 0x0020 0 (withRegs [(2, 5)])) State.pc = some 0x204 ∧
    look (stepAt 0xE29E 0 0 (withRegs [(2, 5)])) State.pc = some 0x202 ∧
    look (stepAt 0xE09E 0xFFFF 0 (withRegs [(0, 16)])) State.pc = some 0x202 := by decide

/-- D-KEY-3, D-KEY-4. -/
theorem test_sknp : look (stepAt 0xE2A1 0 0 (withRegs [(2, 5)])) State.pc = some 0x204 ∧
    look (stepAt 0xE2A1 0x0020 0 (withRegs [(2, 5)])) State.pc = some 0x202 ∧
    look (stepAt 0xE0A1 0xFFFF 0 (withRegs [(0, 16)])) State.pc = some 0x204 := by decide

/-- D-KEY-7, D-KEY-8. -/
theorem test_ldVxK_waits : look (stepAt 0xF00A 0x0008 0 (withPrev 0x0008)) (fun t => (t.pc, t.prevKeys)) =
      some (0x200, 0x0008) ∧
    look (stepAt 0xF00A 0x0200 0 (withPrev 0)) (fun t => (t.pc, t.prevKeys)) = some (0x200, 0x0200) := by decide

/-- D-KEY-9. -/
theorem test_ldVxK_release : look (stepAt 0xF00A 0x0004 0 (withPrev 0x0084)) (fun t => (t.reg 0, t.pc, t.prevKeys)) =
    some (7, 0x202, 0x0004) := by decide

/-! ### Transactions -/

/-- D-TMR-4, D-TMR-6. -/
theorem test_tick : look (step { State.reset with DT := 1, host := { HostPort.idle with pending := [.tick] } })
      (fun t => (t.DT, t.ST, t.pc)) = some (0, 0, 0x200) ∧
    look (step { stopped with host := { HostPort.idle with pending := [.tick] } }) (fun t => (t.DT, t.host.result)) =
      some (5, .halted) := by decide

/-- S13: the image's bytes lie upward from 0x200, and the glyphs are FONT's. -/
theorem test_load : look (step { stopped with
      host := { HostPort.idle with pending := [.load (Vector.replicate Config.fontSize 7) [0x12, 0x34]] } })
      (fun t => ([0x4F, 0x50, 0x200, 0x201, 0x202].map (Memory.read t.mem), t.status, t.DT)) =
    some ([7, 0, 0x12, 0x34, 0], FaultStatus.clear, 0) := by decide

/-- S10, D-SYS-3: a LOAD of 3585 bytes returns ProgramTooLarge and there is no block. -/
theorem test_load_too_large : look (step { State.reset with host := { HostPort.idle with
      pending := [.load (Vector.replicate Config.fontSize 7) (List.replicate 3585 0)] } })
      (fun t => (t.host.result, t.host.blockExists, t.status)) =
    some (.programTooLarge, false, FaultStatus.clear) := by
  have h : State.load (Vector.replicate Config.fontSize 7) (List.replicate 3585 0) = none := by
    rw [State.load, if_pos (by rw [List.length_replicate]; decide)]
  simp only [step, nextTx, performTx, loadTx, h, look]
  rfl

/-- D-CF-14: the last word that can be fetched, and the fetch after it. -/
theorem test_fetch_bounds : look (run 0x00E0 { State.reset with pc := 0xFFE }) State.pc = some 0x1000 ∧
    look (step { State.reset with pc := 0xFFF }) State.status = some ⟨true, 6, 0, 0xFFF⟩ := by decide

/-- D-SYS-1, D-SYS-6: an invalid word; the pressed set is not committed. -/
theorem test_invalid_word : look (stepAt 0x0000 0x0002 0 State.reset) (fun t => (t.status, t.prevKeys, t.pc)) =
    some (⟨true, 1, 0, 0x200⟩, 0, 0x200) := by decide

/-- The host's two entries, on a word of each length the table gives (R60: one length). -/
theorem test_withFetchWord : decodeTableWord 16 0x6005 = some (.ldImm 0 5) ∧ decodeTableWord 16 0x9000 = none ∧
    look (step (State.reset.withFetchWord 16 0x6005)) (fun t => t.reg 0) = some 5 := by decide

/-- Writing what an unlisted address reads as removes the cell (20_memory.md). -/
theorem test_memory_canonical : Memory.write (Memory.write [] 0x300 5) 0x300 0 = [] ∧
    Memory.write (Memory.write [] 0x301 5) 0x300 6 = [(0x300, 6), (0x301, 5)] ∧
    Memory.write [] 0x000 0xF0 = [] := by decide

/-! ### Witnesses: states and operands that meet the hypotheses of the obligations, clause by clause -/

/-- The clauses of AddImmWrapsAndSetsNoFlag, AndRegIsBitwiseAnd, XorRegIsBitwiseXor, AddRegSetsSumAndCarry and
SubRegSetsDifferenceAndNoBorrow about a destination other than VF. -/
theorem witness_destination_not_VF : (0 : RegIdx) ≠ VF ∧ (14 : RegIdx) ≠ VF := by decide

/-- The boundaries of the two clauses: depths 0 and 15, and 16. -/
theorem witness_CallPushesOrOverflows : (withDepth 0).depth.val < 16 ∧ (withDepth 15).depth.val < 16 ∧
    (withDepth 16).depth.val = 16 := by decide

/-- The boundaries of the two clauses: depths 1 and 16, and 0. -/
theorem witness_RetPopsOrUnderflows : (∃ j : Fin Config.stackSlots, (withDepth 1).depth.val = j.val + 1) ∧
    (∃ j : Fin Config.stackSlots, (withDepth 16).depth.val = j.val + 1) ∧ State.reset.depth.val = 0 :=
  ⟨⟨0, by decide⟩, ⟨15, by decide⟩, by decide⟩

theorem witness_ReturnResumesAfterCall : ∃ t t' : State, (withDepth 15).depth.val < 16 ∧
    exec (.call 0x210) (withDepth 15) = .next t ∧ t'.stack = t.stack ∧ t'.depth = t.depth :=
  ⟨_, _, by decide, rfl, rfl, rfl⟩

theorem witness_AddISumsOrOverflows :
    (withI 0xFF00 [(0, 0xFF)]).I.toNat + ((withI 0xFF00 [(0, 0xFF)]).reg 0).toNat ≤ 0xFFFF ∧
    (withI 0xFFFF [(0, 1)]).I.toNat + ((withI 0xFFFF [(0, 1)]).reg 0).toNat > 0xFFFF := by decide

theorem witness_LdBStoresDecimalDigits : (withI 0xFFD []).mem.wf = true ∧ (withI 0xFFD []).I.toNat + 2 ≤ 0xFFF := by decide

theorem witness_StoreRegsStoresTheRun :
    (withI 0xFF0 []).mem.wf = true ∧ (withI 0xFF0 []).I.toNat + (15 : RegIdx).val ≤ 0xFFF := by decide

theorem witness_LoadRegsLoadsTheRun : (withI 0xFF0 []).I.toNat + (15 : RegIdx).val ≤ 0xFFF ∧
    (withI 0xFFF []).I.toNat + (0 : RegIdx).val ≤ 0xFFF := by decide

/-- One for each of the four forms, at the lowest I that passes memory. -/
theorem witness_AccessPastMemoryFaults :
    ((∃ x y, Instr.drw 0 1 2 = .drw x y 2) ∧ 0 < 2 ∧ (withI 0xFFF []).I.toNat + 2 - 1 > 0xFFF) ∧
    ((∃ x, Instr.ldB 0 = .ldB x) ∧ 0 < 3 ∧ (withI 0xFFE []).I.toNat + 3 - 1 > 0xFFF) ∧
    ((∃ x : RegIdx, Instr.storeRegs 15 = .storeRegs x ∧ 16 = x.val + 1) ∧ (withI 0xFF1 []).I.toNat + 16 - 1 > 0xFFF) ∧
    ((∃ x : RegIdx, Instr.loadRegs 0 = .loadRegs x ∧ 1 = x.val + 1) ∧ (withI 0x1000 []).I.toNat + 1 - 1 > 0xFFF) := by
  exact ⟨⟨⟨0, 1, rfl⟩, by decide⟩, ⟨⟨0, rfl⟩, by decide⟩, ⟨⟨15, rfl, rfl⟩, by decide⟩, ⟨⟨0, rfl, rfl⟩, by decide⟩⟩

/-- Program P6: V0 and V1 are stored at 0x208 and fetched there. -/
theorem witness_FetchSeesStoredBytes : ∃ t u : State, (withI 0x208 [(0, 0x60), (1, 0x2A)]).mem.wf = true ∧
    (withI 0x208 [(0, 0x60), (1, 0x2A)]).I.toNat + (1 : RegIdx).val ≤ 0xFFF ∧
    exec (.storeRegs 1) (withI 0x208 [(0, 0x60), (1, 0x2A)]) = .next t ∧ (0 : RegIdx).val + 1 = (1 : RegIdx).val ∧
    (1 : RegIdx) ≤ 1 ∧ u.mem = t.mem ∧ u.pc.toNat = (withI 0x208 [(0, 0x60), (1, 0x2A)]).I.toNat + (0 : RegIdx).val :=
  ⟨_, { (withI 0x208 [(0, 0x60), (1, 0x2A)]) with
      pc := 0x208, mem := Memory.writeBytes [] 0x208 [0x60, 0x2A] },
    by decide, by decide, rfl, rfl, by decide, by decide, by decide⟩

/-- `n = 0` at any I, and one row at the last byte; and a row, bit and pixel of the inner clause. -/
theorem witness_DrwXorsTheSpritePerAxis : (0 ≤ 15 ∧ (0 = 0 ∨ (withI 0xFFFF []).I.toNat + 0 - 1 ≤ 0xFFF)) ∧
    (15 ≤ 15 ∧ (15 = 0 ∨ (withI 0xFF1 []).I.toNat + 15 - 1 ≤ 0xFFF)) ∧
    (14 < 15 ∧ 7 < 8 ∧ (wrapRow 13).val = (0x1F + 14) % 32 ∧ (wrapCol 6).val = (0x3F + 7) % 64) := by decide

theorem witness_DoubleDrawRestoresTheDisplay : ∃ t : State, 5 ≤ 15 ∧ State.reset.I.toNat + 5 - 1 ≤ 0xFFF ∧
    exec (.drw 0 1 5) State.reset = .next t ∧ t.reg 0 = State.reset.reg 0 ∧ t.reg 1 = State.reset.reg 1 :=
  ⟨_, by decide, by decide, rfl, by decide, by decide⟩

/-- A state in whose STEP key 3 is held and key 9 newly pressed. -/
def holding : State := { withPrev 0x0008 with host := { HostPort.idle with keys := 0x0208 } }

/-- A state in whose STEP key 7 of {2, 7} is released and key 2 is still pressed (D-KEY-9). -/
def releasing : State := { withPrev 0x0084 with host := { HostPort.idle with keys := 0x0004 } }

/-- No release, and a release, by the masks and by the edge detector. -/
theorem witness_LdVxKWaitsForARelease :
    (∀ k < 16, holding.prevKeys.getLsbD k = true → holding.host.keys.getLsbD k = true) ∧
    (7 < 16 ∧ releasing.prevKeys.getLsbD 7 = true ∧ releasing.host.keys.getLsbD 7 = false) ∧
    edgeDetect holding.prevKeys holding.host.keys = none ∧
    edgeDetect releasing.prevKeys releasing.host.keys = some 7 := by decide

/-- Keys 0 and 15, one at a time and together. -/
theorem witness_EdgeDetectorReportsAReleasedKey :
    edgeDetect 0x8000 0x8001 = none ∧ edgeDetect 0x8000 0 = some 15 ∧ edgeDetect 0x0001 0 = some 0 ∧
    (∃ k, edgeDetect 0x8001 0 = some k) ∧
    (∀ k' < 16, (0x8000 : KeyMask).getLsbD k' = true → (0 : KeyMask).getLsbD k' = false → k' = (15 : Key).val) :=
  ⟨by decide, by decide, by decide, ⟨_, rfl⟩, by decide⟩

/-- An instruction that faults from a running state. -/
def Faults (i : Instr) (s : State) : Prop := s.running ∧ ∃ t, exec i s = .next t ∧ ¬t.running

theorem faults_of {i : Instr} {s t : State} (h : s.running) (he : exec i s = .next t) (ht : t.status.halted = true) :
    Faults i s :=
  ⟨h, t, he, by simp [State.running, ht]⟩

/-- One for each arm that can be reached; the last arm says that there is none. -/
theorem witness_EachInstructionRaisesOnlyItsFault : Faults .ret State.reset ∧ Faults (.call 0) (withDepth 16) ∧
    Faults (.drw 0 0 1) (withI 0x1000 []) ∧ Faults (.ldB 0) (withI 0xFFE []) ∧
    Faults (.storeRegs 15) (withI 0xFF1 []) ∧ Faults (.loadRegs 15) (withI 0xFF1 []) ∧
    Faults (.addI 0) (withI 0xFFFF [(0, 1)]) :=
  ⟨faults_of rfl rfl rfl, faults_of rfl rfl rfl, faults_of rfl rfl rfl, faults_of rfl rfl rfl, faults_of rfl rfl rfl,
    faults_of rfl rfl rfl, faults_of rfl rfl rfl⟩

/-- A step that faults: from reset the fetched word is 0; from pc 0xFFF there is none to fetch. -/
theorem witness_FaultsArePrecise : (∃ t, State.reset.running ∧ step State.reset = .next t ∧ ¬t.running) ∧
    ∃ t, State.running { State.reset with pc := 0xFFF } ∧ step { State.reset with pc := 0xFFF } = .next t ∧
      ¬t.running :=
  ⟨⟨_, rfl, rfl, by simp [State.running, State.raise]⟩, ⟨_, rfl, rfl, by simp [State.running, State.raise]⟩⟩

/-- A halted block with nothing, a STEP and a TICK pending. -/
theorem witness_HaltedBlockChangesNothing : stopped.host.blockExists = true ∧ ¬stopped.running ∧
    (∀ font image rest, stopped.host.pending ≠ .load font image :: rest) ∧
    (∀ font image rest, ([.step 0 0] : List HostTx) ≠ .load font image :: rest) ∧
    (∀ font image rest, ([.tick] : List HostTx) ≠ .load font image :: rest) := by
  simp [stopped, State.running, State.reset, HostPort.idle]

theorem witness_FetchOutOfRangeFaults : ∃ u, State.running { State.reset with pc := 0xFFF } ∧
    State.stepEntry { State.reset with pc := 0xFFF } = some u ∧
    ({ State.reset with pc := 0xFFF } : State).pc.toNat > 0xFFE :=
  ⟨_, rfl, rfl, by decide⟩

theorem witness_InvalidWordFaults : ∃ u, State.reset.running ∧ State.reset.stepEntry = some u ∧
    State.reset.pc.toNat ≤ 0xFFE ∧ (0 : Word).toNat = (Memory.read State.reset.mem State.reset.pc.toNat).toNat * 256 +
      (Memory.read State.reset.mem (State.reset.pc.toNat + 1)).toNat ∧
    ∀ r ∈ opcodeRows, (0 : Word) &&& r.mask ≠ r.value :=
  ⟨_, rfl, rfl, by decide, by decide, by decide⟩

/-- Both ways a STEP is chosen: nothing pending, and one pending; the last pc that can be fetched from. -/
theorem witness_StepRunsTheDecodedInstruction :
    (∃ u, (State.reset.withFetchWord 16 0x6005).running ∧ (State.reset.withFetchWord 16 0x6005).stepEntry = some u ∧
      (State.reset.withFetchWord 16 0x6005).pc.toNat ≤ 0xFFE ∧
      decode (State.reset.withFetchWord 16 0x6005).bytesAtPc = .instr (.ldImm 0 5) []) ∧
    ∃ u, State.stepEntry { State.reset with
      pc := 0xFFE, host := { HostPort.idle with pending := [.step 0x8001 0xFF, .tick] } } = some u :=
  ⟨⟨_, rfl, rfl, by decide, by decide⟩, ⟨_, rfl⟩⟩

/-- One for each kind of move: NEXT at the highest pc, SKIP taken and not, SET and STAY. -/
theorem witness_PcMovesByTheTable :
    (∃ t, exec (.seImm 0 0) { State.reset with pc := 0xFFE } = .next t ∧ t.running) ∧
    (∃ t, exec (.sneImm 0 0) State.reset = .next t ∧ t.running) ∧
    (∃ t, exec (.seReg 0 1) State.reset = .next t ∧ t.running) ∧
    (∃ t, exec (.skp 0) State.reset = .next t ∧ t.running) ∧ (∃ t, exec (.sknp 0) State.reset = .next t ∧ t.running) ∧
    (∃ t, exec (.jp 0xFFF) State.reset = .next t ∧ t.running) ∧
    (∃ t, exec (.call 0) (withDepth 15) = .next t ∧ t.running) ∧ (∃ t, exec .ret (withDepth 1) = .next t ∧ t.running) ∧
    (∃ t, exec (.ldVxK 0) State.reset = .next t ∧ t.running) ∧ ∃ t, exec .cls State.reset = .next t ∧ t.running :=
  ⟨⟨_, rfl, rfl⟩, ⟨_, rfl, rfl⟩, ⟨_, rfl, rfl⟩, ⟨_, rfl, rfl⟩, ⟨_, rfl, rfl⟩, ⟨_, rfl, rfl⟩, ⟨_, rfl, rfl⟩, ⟨_, rfl, rfl⟩,
    ⟨_, rfl, rfl⟩, ⟨_, rfl, rfl⟩⟩

/-- A running block with two TICKs and a STEP pending. -/
def ticking : State := { State.reset with DT := 1, host := { HostPort.idle with pending := [.tick, .tick, .step 0 0] } }

theorem witness_TickCountsBothTimersDown : ticking.host.blockExists = true ∧ ticking.running ∧
    ticking.host.pending = .tick :: [.tick, .step 0 0] :=
  ⟨rfl, rfl, rfl⟩

theorem witness_TimersFloorAtZero : ticking.host.blockExists = true ∧ ticking.running ∧
    ticking.host.pending = List.replicate 2 .tick ++ [.step 0 0] :=
  ⟨rfl, rfl, rfl⟩

/-- An instruction that writes a run of memory, and a byte on each side of the run; a call, and the slots beside `depth`. -/
theorem witness_ExecWritesOnlyItsRow :
    (∃ t, (withI 0x300 []).running ∧ exec (.storeRegs 1) (withI 0x300 []) = .next t ∧ t.running ∧
      (withI 0x300 []).mem.wf = true ∧ 0x2FF < (withI 0x300 []).I.toNat ∧
      (withI 0x300 []).I.toNat + (Instr.storeRegs 1).storeLength ≤ 0x302) ∧
    (∃ t, (withDepth 1).running ∧ exec (.call 0x300) (withDepth 1) = .next t ∧ t.running ∧
      0 ≠ (withDepth 1).depth.val ∧ 2 ≠ (withDepth 1).depth.val) ∧ ∀ nnn, Instr.cls ≠ .call nnn :=
  ⟨⟨_, rfl, rfl, rfl, by decide, by decide, by decide⟩, ⟨_, rfl, rfl, rfl, by decide, by decide⟩, nofun⟩

/-- A step that changes memory (Fx33) and one that changes the display (Dxyn at the glyph of 0). -/
theorem witness_OnlyStoresAndDrawsReachMemoryAndDisplay :
    (∃ t, step ((withI 0x300 [(0, 0x7B)]).withFetchWord 16 0xF033) = .next t ∧
      ¬Element.memory.same ((withI 0x300 [(0, 0x7B)]).withFetchWord 16 0xF033) t) ∧
    (∃ t, step (State.reset.withFetchWord 16 0xD011) = .next t ∧
      ¬Element.display.same (State.reset.withFetchWord 16 0xD011) t) ∧
    ∀ font image rest, (State.reset.withFetchWord 16 0xD011).host.pending ≠ .load font image :: rest := by
  refine ⟨⟨_, rfl, fun h => ?_⟩, ⟨_, rfl, fun h => ?_⟩, fun _ _ _ h => by cases h⟩
  · exact absurd (h 0x300) (by decide)
  · exact absurd (h 0 0) (by decide)

/-- Steps that change I, a slot, DT and ST; and a TICK that changes both timers. -/
theorem witness_OnlyTheirOwnWritersReachIndexStackAndTimers :
    (∃ t, step (State.reset.withFetchWord 16 0xA300) = .next t ∧ t.I ≠ (State.reset.withFetchWord 16 0xA300).I) ∧
    (∃ t, step (State.reset.withFetchWord 16 0x2300) = .next t ∧ t.stack[0] ≠ State.reset.stack[0]) ∧
    (∃ t, step ((withRegs [(0, 9)]).withFetchWord 16 0xF015) = .next t ∧ t.DT ≠ 0) ∧
    (∃ t, step ((withRegs [(0, 9)]).withFetchWord 16 0xF018) = .next t ∧ t.ST ≠ 0) ∧
    ∃ t, step ticking = .next t ∧ t.DT ≠ ticking.DT :=
  ⟨⟨_, rfl, by decide⟩, ⟨_, rfl, by decide⟩, ⟨_, rfl, by decide⟩, ⟨_, rfl, by decide⟩, ⟨_, rfl, by decide⟩⟩

theorem witness_OnlyThreeInstructionsWriteVFAsAFlag :
    ∃ t, exec (.addReg 0 1) (withRegs [(0, 0x80), (1, 0x80)]) = .next t ∧
      t.reg VF ≠ (withRegs [(0, 0x80), (1, 0x80)]).reg VF :=
  ⟨_, rfl, by decide⟩

theorem witness_OnlyRndReadsTheRandomByte : (∀ x kk, Instr.cls ≠ .rnd x kk) ∧ ∃ t, exec .cls State.reset = .next t :=
  ⟨nofun, _, rfl⟩

theorem witness_NoInstructionReadsTheSoundTimer : (∃ t, exec (.ldStVx 0) State.reset = .next t) ∧
    ∃ t, exec (.ldVxDt 0) State.reset = .next t :=
  ⟨⟨_, rfl⟩, ⟨_, rfl⟩⟩

theorem witness_OnlyFx0AObservesTheLatch : (∀ x, Instr.skp 0 ≠ .ldVxK x) ∧ ∃ t, exec (.skp 0) State.reset = .next t :=
  ⟨nofun, _, rfl⟩

/-- The empty image and the longest one. -/
theorem witness_LoadBuildsTheBlock :
    (({ HostPort.idle with pending := [.load (Vector.replicate Config.fontSize 0) [], .tick] } : HostPort).pending =
      .load (Vector.replicate Config.fontSize 0) [] :: [.tick]) ∧ ([] : List Byte).length ≤ 3584 ∧
    (List.replicate 3584 (0xFF : Byte)).length ≤ 3584 :=
  ⟨rfl, by decide, Nat.le_of_eq List.length_replicate⟩

/-- The longest image that fits, and the shortest that does not. -/
theorem length_longest : (List.replicate 3584 (0xFF : Byte)).length = 3584 := List.length_replicate
theorem length_tooLong : (List.replicate 3585 (0xFF : Byte)).length = 3585 := List.length_replicate

/-- No block. -/
def noBlock : State := { State.reset with host := { HostPort.idle with blockExists := false } }

/-- Images of 3584 and 3585 bytes; no block with nothing pending. -/
theorem witness_ProgramTooLargeAboveLimit :
    (∃ t, (List.replicate 3584 (0xFF : Byte)).length = 3584 ∧
      State.load (Vector.replicate Config.fontSize 0) (List.replicate 3584 0xFF) = some t) ∧
    (List.replicate 3585 (0xFF : Byte)).length > 3584 ∧
    noBlock.host.blockExists = false ∧ ∀ font image rest, noBlock.host.pending ≠ .load font image :: rest :=
  ⟨⟨_, length_longest, by rw [State.load, if_neg (by rw [length_longest]; decide)]⟩,
    by rw [length_tooLong]; decide, rfl, nofun⟩

/-- One LOAD that is too large and one that fits behind it. -/
theorem witness_ProgramTooLargeIsRecoverable :
    ∃ (tooLarge : List (Vector Byte Config.fontSize × List Byte)) (font : Vector Byte Config.fontSize)
      (s b : State), tooLarge.length = 1 ∧ (∀ p ∈ tooLarge, p.2.length > 3584) ∧ State.load font [0x12] = some b ∧
      s.host.pending = tooLarge.map (fun p => .load p.1 p.2) ++ .load font [0x12] :: [.tick] := by
  refine ⟨[(Vector.replicate Config.fontSize 0, List.replicate 3585 0xFF)], Vector.replicate Config.fontSize 0,
    { State.reset with host := { HostPort.idle with pending := _ } }, _, rfl, ?_, rfl, rfl⟩
  intro p hp
  rw [List.mem_singleton] at hp
  rw [hp, length_tooLong]
  decide

theorem witness_DecodeOfEncodeIsTheInstruction : (Instr.drw 15 15 15).wf = true := by decide

theorem witness_EncodeOfDecodeIsTheWord : decodeWord 0xDFFF = some (.drw 15 15 15) := by decide

/-- A word that a row accepts, one that no row does, and the rows of an accepted word. -/
theorem witness_DecodeFollowsTheOpcodeMap : (∃ r ∈ opcodeRows, (0xF165 : Word) &&& r.mask = r.value) ∧
    (∀ r ∈ opcodeRows, (0x9120 : Word) &&& r.mask ≠ r.value) ∧ decodeWord 0xF165 = some (.loadRegs 1) := by decide

theorem witness_EveryStepKeepsTheInvariant : ∃ t, State.reset.Inv ∧ step State.reset = .next t := by
  refine ⟨_, ?_, rfl⟩
  constructor <;> simp [State.reset, FaultStatus.clear, Memory.wf, Memory.wfFrom]

end Sys2Proof.Tests
end

section
/-! PROOFS. The frame of each update of the state, as a list of the elements it may touch. -/

namespace Sys2Proof.Machine.State

variable (s : State)

theorem keepsAllBut_setMem (m : Memory) : s.keepsAllBut { s with mem := m } [.memory] := by
  intro e he; cases e <;> simp_all [Element.same, reg_eq]

theorem keepsAllBut_setReg (x : RegIdx) (b : Byte) : s.keepsAllBut (s.setReg x b) [.reg x] := by
  intro e he; cases e <;> simp_all [Element.same, reg_setReg_of_ne]

theorem keepsAllBut_setFlagThenReg (x : RegIdx) (f b : Byte) :
    s.keepsAllBut (s.setFlagThenReg x f b) [.reg VF, .reg x] := by
  intro e he; cases e <;> simp_all [Element.same, reg_setFlagThenReg]

theorem reg_mem_regsUpTo {r x : RegIdx} : Element.reg r ∈ regsUpTo x ↔ r ≤ x := by
  simp [regsUpTo]

theorem keepsAllBut_setRegsThrough (x : RegIdx) (f : Nat → Byte) :
    s.keepsAllBut (s.setRegsThrough x f) (regsUpTo x) := by
  intro e he
  cases e with
  | reg r =>
    have hr : ¬r ≤ x := fun h => he (reg_mem_regsUpTo.mpr h)
    exact (s.reg_setRegsThrough x r f).trans (if_neg hr)
  | _ => simp [Element.same]

theorem keepsAllBut_setI (v : Word) : s.keepsAllBut { s with I := v } [.index] := by
  intro e he; cases e <;> simp_all [Element.same, reg_eq]

theorem keepsAllBut_setStackDepth (v : Vector Word Config.stackSlots) (d : Fin (Config.stackSlots + 1)) :
    s.keepsAllBut { s with stack := v, depth := d } [.stack, .depth] := by
  intro e he; cases e <;> simp_all [Element.same, reg_eq]

theorem keepsAllBut_setDepth (d : Fin (Config.stackSlots + 1)) : s.keepsAllBut { s with depth := d } [.depth] := by
  intro e he; cases e <;> simp_all [Element.same, reg_eq]

theorem keepsAllBut_setDisp (d : Display) : s.keepsAllBut { s with disp := d } [.display] := by
  intro e he; cases e <;> simp_all [Element.same, reg_eq]

theorem keepsAllBut_setDT (v : Byte) : s.keepsAllBut { s with DT := v } [.delayTimer] := by
  intro e he; cases e <;> simp_all [Element.same, reg_eq]

theorem keepsAllBut_setST (v : Byte) : s.keepsAllBut { s with ST := v } [.soundTimer] := by
  intro e he; cases e <;> simp_all [Element.same, reg_eq]

theorem keepsAllBut_setHost (p : HostPort) : s.keepsAllBut { s with host := p } [.hostPort] := by
  intro e he; cases e <;> simp_all [Element.same, reg_eq]

theorem keepsAllBut_refl (l : List Element) : s.keepsAllBut s l := fun e _ => e.same_refl s

/-- Updates done one after another touch what each of them touches. -/
theorem keepsAllBut_append {s t u : State} {l l' : List Element} (h : s.keepsAllBut t l) (h' : t.keepsAllBut u l') :
    s.keepsAllBut u (l ++ l') :=
  keepsAllBut_trans (keepsAllBut_mono (List.subset_append_left l l') h)
    (keepsAllBut_mono (List.subset_append_right l l') h')

/-- A TICK touches the timers and the host port (R164), of a halted block the host port only (R89). -/
theorem keepsAllBut_tick : s.keepsAllBut (tick s) [.delayTimer, .soundTimer, .hostPort] := by
  intro e he
  unfold tick
  split <;> cases e <;> simp_all [Element.same, reg_eq]

end Sys2Proof.Machine.State
end

section
/-! PROOFS. What an instruction can do, once: the inversion of `exec`. -/

namespace Sys2Proof.Machine

/-- The addresses pc can move to when an instruction completes (R86, R90 to R92). -/
inductive PcTarget (s : State) : Word → Prop
  | stay : PcTarget s s.pc
  | next : PcTarget s (s.pc + 2)
  | skip : PcTarget s (s.pc + 4)
  | address (nnn : BitVec 12) : PcTarget s (addr16 nnn)
  | popped (j : Fin Config.stackSlots) : PcTarget s s.stack[j.val]

/-- All of what `i` may have done to `s` when it completed in `t`. -/
structure Completed (i : Instr) (s t : State) : Prop where
  /-- Only the elements of the instruction's row of R37 changed. -/
  frame : s.keepsAllBut t i.writes
  /-- Memory is the same list, or the run of bytes the instruction stores, within memory, was written at `I` (R43, R44). -/
  mem : t.mem = s.mem ∨ ∃ bytes : List Byte, bytes.length = i.storeLength ∧ s.I.toNat + bytes.length ≤ Config.memSize ∧
    t.mem = Memory.writeBytes s.mem s.I.toNat bytes
  /-- The stack is the same, or 2nnn put the return address into the slot at `depth` (R92). -/
  stack : t.stack = s.stack ∨ (∃ nnn, i = .call nnn) ∧ ∃ h : s.depth.val < Config.stackSlots,
    t.stack = s.stack.set s.depth.val (s.pc + 2)
  pc : PcTarget s t.pc

theorem pc_latch_subset_writes (i : Instr) : [Element.pc, .latch] ⊆ i.writes := by
  cases i <;> simp [Instr.writes]

theorem faultStatus_not_mem_writes (i : Instr) : Element.faultStatus ∉ i.writes := by
  cases i <;> simp [Instr.writes, regsUpTo]

theorem hostPort_not_mem_writes (i : Instr) : Element.hostPort ∉ i.writes := by
  cases i <;> simp [Instr.writes, regsUpTo]

section
variable {i : Instr} {s u : State} {w : Word} {l : List Element}

/-- `commit` adds pc and the latch to the frame of the update it ends. -/
theorem keepsAllBut_commit_of_subset_writes (h : s.keepsAllBut u l) (hl : l ⊆ i.writes) :
    s.keepsAllBut (u.commit w) i.writes :=
  State.keepsAllBut_mono (List.append_subset.mpr ⟨hl, pc_latch_subset_writes i⟩)
    (State.keepsAllBut_append h (u.keepsAllBut_commit w))

/-- An instruction that stores and pushes nothing completes when its update stays within its row. -/
theorem Completed.of_commit (h : s.keepsAllBut u l) (hl : l ⊆ i.writes) (hmem : u.mem = s.mem)
    (hstack : u.stack = s.stack) (hpc : PcTarget s w) : Completed i s (u.commit w) :=
  ⟨keepsAllBut_commit_of_subset_writes h hl, .inl hmem, .inl hstack, hpc⟩

theorem Completed.of_setReg {x : RegIdx} (b : Byte) (hx : Element.reg x ∈ i.writes) :
    Completed i s (s.setReg x b).next :=
  .of_commit (s.keepsAllBut_setReg x b) (by simpa using hx) rfl rfl .next

theorem Completed.of_setFlagThenReg {x : RegIdx} (f b : Byte) (hx : [Element.reg VF, .reg x] ⊆ i.writes) :
    Completed i s (s.setFlagThenReg x f b).next :=
  .of_commit (s.keepsAllBut_setFlagThenReg x f b) hx rfl rfl .next

theorem Completed.of_setI (v : Word) (h : Element.index ∈ i.writes) :
    Completed i s (({ s with I := v } : State).commit (s.pc + 2)) :=
  .of_commit (s.keepsAllBut_setI v) (by simpa using h) rfl rfl .next

/-- An instruction that ends without an update. -/
theorem Completed.of_target (hpc : PcTarget s w) : Completed i s (s.commit w) :=
  .of_commit (s.keepsAllBut_refl []) (List.nil_subset _) rfl rfl hpc

theorem Completed.of_skipIf (c : Bool) : Completed i s (s.skipIf c) := by
  cases c
  · exact .of_target .next
  · exact .of_target .skip

/-- An instruction that stores the run of its row at `I`, within memory. -/
theorem Completed.of_store {bytes : List Byte} (h : Element.memory ∈ i.writes) (hlen : bytes.length = i.storeLength)
    (hle : s.I.toNat + bytes.length ≤ Config.memSize) :
    Completed i s (({ s with mem := Memory.writeBytes s.mem s.I.toNat bytes } : State).commit (s.pc + 2)) :=
  ⟨keepsAllBut_commit_of_subset_writes (s.keepsAllBut_setMem _) (by simpa using h),
    .inr ⟨bytes, hlen, hle, rfl⟩, .inl rfl, .next⟩

end

/-! ### Fx0A, one equation per case (R145) -/

theorem exec_ldVxK_of_none {s : State} (x : RegIdx) (h : s.released = none) :
    exec (.ldVxK x) s = .next (s.commit s.pc) := by
  simp [exec, execLdVxK, h]

theorem exec_ldVxK_of_some {s : State} (x : RegIdx) {k : Key} (h : s.released = some k) :
    exec (.ldVxK x) s = .next ((s.setReg x (BitVec.ofNat 8 k.val)).commit (s.pc + 2)) := by
  simp [exec, execLdVxK, h]

/-! ### Every instruction -/

/-- Every instruction completes within its row, or it raises a fault of its own word. -/
theorem exec_completes_or_raises (i : Instr) (s : State) :
    (∃ t, exec i s = .next t ∧ Completed i s t) ∨ ∃ k, exec i s = .next (s.raise k (encode i)) := by
  cases i with
  | cls => exact .inl ⟨_, rfl, .of_commit (s.keepsAllBut_setDisp _) (by simp [Instr.writes]) rfl rfl .next⟩
  | ret =>
    rcases Nat.eq_zero_or_pos s.depth.val with h | h
    · exact .inr ⟨_, exec_ret_of_empty s h⟩
    · have hj : s.depth.val - 1 < Config.stackSlots := by have := depth_le s; simp only [Config.stackSlots]; omega
      exact .inl ⟨_, exec_ret_of_pos s h,
        .of_commit (s.keepsAllBut_setDepth _) (by simp [Instr.writes]) rfl rfl (.popped ⟨_, hj⟩)⟩
  | jp nnn => exact .inl ⟨_, rfl, .of_target (.address nnn)⟩
  | call nnn =>
    rcases Nat.lt_or_ge s.depth.val 16 with h | h
    · exact .inl ⟨_, exec_call_of_lt s nnn h,
        keepsAllBut_commit_of_subset_writes (s.keepsAllBut_setStackDepth _ _) (by simp [Instr.writes]),
        .inl rfl, .inr ⟨⟨nnn, rfl⟩, h, rfl⟩, .address nnn⟩
    · exact .inr ⟨_, exec_call_of_full s nnn (Nat.le_antisymm (depth_le s) h)⟩
  | seImm | sneImm | seReg | skp | sknp => exact .inl ⟨_, rfl, .of_skipIf _⟩
  | ldImm | addImm | ldReg | andReg | xorReg | rnd | ldVxDt =>
    exact .inl ⟨_, rfl, .of_setReg _ (by simp [Instr.writes])⟩
  | addReg | subReg => exact .inl ⟨_, rfl, .of_setFlagThenReg _ _ (by simp [Instr.writes])⟩
  | ldI | ldF => exact .inl ⟨_, rfl, .of_setI _ (by simp [Instr.writes])⟩
  | drw x y n =>
    by_cases h : n = 0 ∨ s.I.toNat + n - 1 ≤ 0xFFF
    · exact .inl ⟨_, exec_drw_of_legal s x y n h,
        .of_commit (State.keepsAllBut_append (s.keepsAllBut_setDisp _) (State.keepsAllBut_setReg _ VF _))
          (by simp [Instr.writes]) rfl rfl .next⟩
    · exact .inr ⟨_, exec_drw_of_gt s x y n (by omega) (by omega)⟩
  | ldVxK x =>
    cases h : s.released with
    | none => exact .inl ⟨_, exec_ldVxK_of_none x h, .of_target .stay⟩
    | some k => exact .inl ⟨_, exec_ldVxK_of_some x h, .of_setReg _ (by simp [Instr.writes])⟩
  | ldDtVx x => exact .inl ⟨_, rfl, .of_commit (s.keepsAllBut_setDT _) (by simp [Instr.writes]) rfl rfl .next⟩
  | ldStVx x => exact .inl ⟨_, rfl, .of_commit (s.keepsAllBut_setST _) (by simp [Instr.writes]) rfl rfl .next⟩
  | addI x =>
    by_cases h : s.I.toNat + (s.reg x).toNat ≤ 0xFFFF
    · exact .inl ⟨_, exec_addI_of_le s x h, .of_setI _ (by simp [Instr.writes])⟩
    · exact .inr ⟨_, exec_addI_of_gt s x (by omega)⟩
  | ldB x =>
    by_cases h : s.I.toNat + 2 ≤ 0xFFF
    · exact .inl ⟨_, exec_ldB_of_legal s x h, .of_store (by simp [Instr.writes]) (by simp [Instr.storeLength])
        (by simp; omega)⟩
    · exact .inr ⟨_, exec_ldB_of_gt s x (by omega)⟩
  | storeRegs x =>
    by_cases h : s.I.toNat + x.val ≤ 0xFFF
    · exact .inl ⟨_, exec_storeRegs_of_legal s x h, .of_store (by simp [Instr.writes]) (by simp [Instr.storeLength])
        (by simp; omega)⟩
    · exact .inr ⟨_, exec_storeRegs_of_gt s x (by omega)⟩
  | loadRegs x =>
    by_cases h : s.I.toNat + x.val ≤ 0xFFF
    · exact .inl ⟨_, exec_loadRegs_of_legal s x h,
        .of_commit (s.keepsAllBut_setRegsThrough x _) (by simp [Instr.writes]) rfl rfl .next⟩
    · exact .inr ⟨_, exec_loadRegs_of_gt s x (by omega)⟩

/-- The same, of a given answer. -/
theorem completed_or_raised {i : Instr} {s t : State} (h : exec i s = .next t) :
    Completed i s t ∨ ∃ k, t = s.raise k (encode i) := by
  rcases exec_completes_or_raises i s with ⟨u, hu, hc⟩ | ⟨k, hk⟩
  · rw [hu] at h; cases h; exact .inl hc
  · rw [hk] at h; cases h; exact .inr ⟨k, rfl⟩

end Sys2Proof.Machine
end

section
/-! PROOFS. What a step does to each element, and the statements of 10_state.md about one instruction or one step. -/

namespace Sys2Proof.Machine

/-! ### An instruction writes only its row (R37) -/

section
variable {i : Instr} {s t : State} {e : Element}

theorem Completed.status_eq (h : Completed i s t) : t.status = s.status :=
  h.frame .faultStatus (faultStatus_not_mem_writes i)

theorem Completed.host_eq (h : Completed i s t) : t.host = s.host :=
  h.frame .hostPort (hostPort_not_mem_writes i)

/-- A completed instruction stores nothing outside the run of its row (R43). -/
theorem Completed.read_outside_run (h : Completed i s t) (hwf : s.mem.wf = true) {a : Nat}
    (ha : a < s.I.toNat ∨ s.I.toNat + i.storeLength ≤ a) : Memory.read t.mem a = Memory.read s.mem a := by
  rcases h.mem with hm | ⟨bytes, hlen, hle, hm⟩
  · rw [hm]
  · have hout : ¬(s.I.toNat ≤ a ∧ a < s.I.toNat + bytes.length) := by omega
    rw [hm, Memory.read_writeBytes hwf hle, if_neg hout]

/-- A slot changes only when 2nnn completes, and it is the one at `depth` (R92). -/
theorem Completed.slot_changed (h : Completed i s t) {j : Fin Config.stackSlots}
    (hj : t.stack[j.val] ≠ s.stack[j.val]) : j.val = s.depth.val ∧ ∃ nnn, i = .call nnn := by
  rcases h.stack with hs | ⟨hcall, hlt, hs⟩
  · exact absurd (by rw [hs]) hj
  · refine ⟨?_, hcall⟩
    by_contra hne
    exact hj (by simp [hs, Vector.getElem_set_ne, Ne.symm hne])

/-- An element that an instruction changed is in its row, or a fault changed it. -/
theorem mem_writes_of_changed (h : exec i s = .next t) (he : ¬e.same s t) :
    e ∈ i.writes ∨ e = .faultStatus ∨ e = .hostPort := by
  rcases completed_or_raised h with hc | ⟨k, rfl⟩
  · exact .inl (by_contra fun hn => he (hc.frame e hn))
  · have hmem : e ∈ [Element.faultStatus, .hostPort] := by_contra fun hn => he (s.keepsAllBut_raise k _ e hn)
    exact .inr (by simpa using hmem)

end

/-- Settles O44: an instruction that does not fault completes, and what a completed instruction may have done is its
row of R37. -/
theorem execWritesOnlyItsRow : Obligations.ExecWritesOnlyItsRow := by
  intro i s t _ h ht
  have hc : Completed i s t := by
    rcases completed_or_raised h with hc | ⟨k, rfl⟩
    · exact hc
    · cases ht
  refine ⟨hc.frame, fun hwf a ha => hc.read_outside_run hwf ha, fun j hj => ?_⟩
  by_contra hne
  obtain ⟨hdepth, nnn, hcall⟩ := hc.slot_changed hne
  exact hj.elim (fun h => h hdepth) (fun h => h nnn hcall)

/-! ### VF (R23) -/

/-- The instructions in whose row VF can stand: the three that write it as a flag, and those whose destination it is. -/
theorem vf_mem_writes {i : Instr} (h : Element.reg VF ∈ i.writes) :
    (∃ x y, i = .addReg x y) ∨ (∃ x y, i = .subReg x y) ∨ (∃ x y n, i = .drw x y n) ∨
    (∃ kk, i = .ldImm VF kk) ∨ (∃ kk, i = .addImm VF kk) ∨ (∃ y, i = .ldReg VF y) ∨ (∃ y, i = .andReg VF y) ∨
    (∃ y, i = .xorReg VF y) ∨ (∃ kk, i = .rnd VF kk) ∨ i = .ldVxDt VF ∨ i = .ldVxK VF ∨ i = .loadRegs VF := by
  cases i with
  | loadRegs x =>
    have hx : VF ≤ x := State.reg_mem_regsUpTo.mp (by simpa [Instr.writes] using h)
    have : x = VF := Fin.le_antisymm (Fin.le_last x) hx
    simp [this]
  | _ => revert h; simp [Instr.writes, eq_comm]

/-- Settles O47: VF changes only under an instruction in whose row it stands. -/
theorem onlyThreeInstructionsWriteVFAsAFlag : Obligations.OnlyThreeInstructionsWriteVFAsAFlag := by
  intro i s t h hne
  rcases mem_writes_of_changed (e := .reg VF) h hne with hw | he | he
  · exact vf_mem_writes hw
  · cases he
  · cases he

/-! ### What one step does to each element -/

/-- A step that is no LOAD is a TICK, touches only the fault status and the host port, or completes the instruction
fetched; `p` is the host port its STEP starts from. -/
theorem step_effect {s t : State} (h : step s = .next t)
    (hl : ∀ font image rest, s.host.pending ≠ .load font image :: rest) :
    (∃ rest, s.host.pending = .tick :: rest ∧ s.keepsAllBut t [.delayTimer, .soundTimer, .hostPort]) ∨
    s.keepsAllBut t [.faultStatus, .hostPort] ∨
    ∃ p w i, s.fetch = some w ∧ decodeWord w = some i ∧ Completed i { s with host := p } t := by
  have raised (p : HostPort) (k : FaultKind) (w : Word) :
      s.keepsAllBut (State.raise { s with host := p } k w) [.faultStatus, .hostPort] :=
    State.keepsAllBut_trans (State.keepsAllBut_mono (by simp) (s.keepsAllBut_setHost p))
      (State.keepsAllBut_raise _ k w)
  rcases step_cases s t h with ⟨font, image, rest, hp, _⟩ | ⟨rest, hp, rfl⟩ | ⟨p, _, hstep⟩
  · exact absurd hp (hl font image rest)
  · exact .inl ⟨rest, hp, State.keepsAllBut_trans (State.keepsAllBut_mono (by simp) (s.keepsAllBut_setHost _))
      (State.keepsAllBut_tick _)⟩
  · rcases hstep with ⟨_, rfl⟩ | ⟨_, _, rfl⟩ | ⟨_, w, _, _, rfl⟩ | ⟨_, w, i, hf, hd, hx⟩
    · exact .inr (.inl (State.keepsAllBut_mono (by simp) (s.keepsAllBut_setHost _)))
    · exact .inr (.inl (raised p _ _))
    · exact .inr (.inl (raised p _ _))
    · rcases completed_or_raised hx with hc | ⟨k, rfl⟩
      · exact .inr (.inr ⟨p, w, i, hf, hd, hc⟩)
      · exact .inr (.inl (raised p k _))

/-- An element other than the fault status and the host port that a step with no LOAD changed: it is a timer and the step
a TICK, or it stands in the row of the instruction fetched. -/
theorem written_of_step_changed {s t : State} (h : step s = .next t)
    (hl : ∀ font image rest, s.host.pending ≠ .load font image :: rest) {e : Element} (he : ¬e.same s t)
    (hne : e ∉ [Element.faultStatus, .hostPort]) :
    ((∃ rest, s.host.pending = .tick :: rest) ∧ e ∈ [Element.delayTimer, .soundTimer]) ∨
      ∃ w i, s.fetch = some w ∧ decodeWord w = some i ∧ e ∈ i.writes := by
  simp only [List.mem_cons, List.not_mem_nil, or_false, not_or] at hne
  rcases step_effect h hl with ⟨rest, hp, hk⟩ | hk | ⟨p, w, i, hf, hd, hc⟩
  · have hmem := by_contra fun hn => he (hk e hn)
    exact .inl ⟨⟨rest, hp⟩, by simpa [hne] using hmem⟩
  · exact absurd (hk e (by simp [hne])) he
  · refine .inr ⟨w, i, hf, hd, by_contra fun hn => he ?_⟩
    exact e.same_trans (s.keepsAllBut_setHost p e (by simp [hne])) (hc.frame e hn)

theorem index_mem_writes {i : Instr} (h : Element.index ∈ i.writes) :
    (∃ nnn, i = .ldI nnn) ∨ (∃ x, i = .addI x) ∨ ∃ x, i = .ldF x := by
  cases i <;> simp [Instr.writes, regsUpTo] at h ⊢

theorem delayTimer_mem_writes {i : Instr} (h : Element.delayTimer ∈ i.writes) : ∃ x, i = .ldDtVx x := by
  cases i <;> simp [Instr.writes, regsUpTo] at h ⊢

theorem soundTimer_mem_writes {i : Instr} (h : Element.soundTimer ∈ i.writes) : ∃ x, i = .ldStVx x := by
  cases i <;> simp [Instr.writes, regsUpTo] at h ⊢

/-- A slot of the stack that a step with no LOAD changed: the one at `depth`, and the instruction fetched is 2nnn. -/
theorem call_of_step_changed_slot {s t : State} (h : step s = .next t)
    (hl : ∀ font image rest, s.host.pending ≠ .load font image :: rest) {j : Fin Config.stackSlots}
    (hj : t.stack[j.val] ≠ s.stack[j.val]) :
    j.val = s.depth.val ∧ ∃ w nnn, s.fetch = some w ∧ decodeWord w = some (.call nnn) := by
  have unchanged (l : List Element) (hk : s.keepsAllBut t l) (hn : Element.stack ∉ l) : False := by
    have hs : t.stack = s.stack := hk .stack hn
    exact hj (by rw [hs])
  rcases step_effect h hl with ⟨rest, hp, hk⟩ | hk | ⟨p, w, i, hf, hd, hc⟩
  · exact (unchanged _ hk (by simp)).elim
  · exact (unchanged _ hk (by simp)).elim
  · obtain ⟨hdepth, nnn, rfl⟩ := hc.slot_changed hj
    exact ⟨hdepth, w, nnn, hf, hd⟩

/-- Settles O46: each of the four elements changes only where it stands in the row of the word fetched, or, for a timer,
by a TICK. -/
theorem onlyTheirOwnWritersReachIndexStackAndTimers : Obligations.OnlyTheirOwnWritersReachIndexStackAndTimers := by
  intro s t h hl
  refine ⟨fun hI => ?_, fun j hj => call_of_step_changed_slot h hl hj, fun hDT => ?_, fun hST => ?_⟩
  · rcases written_of_step_changed (e := .index) h hl hI (by simp) with ⟨_, he⟩ | ⟨w, i, hf, hd, hw⟩
    · simp at he
    · exact ⟨w, i, hf, hd, index_mem_writes hw⟩
  · rcases written_of_step_changed (e := .delayTimer) h hl hDT (by simp) with ⟨htick, _⟩ | ⟨w, i, hf, hd, hw⟩
    · exact .inl htick
    · obtain ⟨x, rfl⟩ := delayTimer_mem_writes hw
      exact .inr ⟨w, x, hf, hd⟩
  · rcases written_of_step_changed (e := .soundTimer) h hl hST (by simp) with ⟨htick, _⟩ | ⟨w, i, hf, hd, hw⟩
    · exact .inl htick
    · obtain ⟨x, rfl⟩ := soundTimer_mem_writes hw
      exact .inr ⟨w, x, hf, hd⟩

/-! ### TICKs (R29, R30, R164) -/

/-- A queued TICK of a running block takes one from each timer, floored at 0, and touches nothing else. -/
theorem step_tick_counts_down {s : State} {rest : List HostTx} (hb : s.host.blockExists = true) (hr : s.running)
    (hp : s.host.pending = .tick :: rest) :
    ∃ t, step s = .next t ∧ t.DT.toNat = s.DT.toNat - 1 ∧ t.ST.toNat = s.ST.toNat - 1 ∧
      t.host = { s.host with pending := rest, result := .ok } ∧
      s.keepsAllBut t [.delayTimer, .soundTimer, .hostPort] := by
  have hh : s.status.halted = false := hr
  refine ⟨_, step_tick s rest hb hp, ?_, ?_, ?_, State.keepsAllBut_trans
    (State.keepsAllBut_mono (by simp) (s.keepsAllBut_setHost _)) (State.keepsAllBut_tick _)⟩
  · simp [tick, hh, countdown_toNat]
  · simp [tick, hh, countdown_toNat]
  · simp [tick, hh]

/-- Settles O43, by induction on the number of TICKs: the first takes one from each timer, floored at 0, and leaves a
running block with the other TICKs queued. -/
theorem timersFloorAtZero : Obligations.TimersFloorAtZero := by
  intro k
  induction k with
  | zero =>
    intro s rest _ _ hp
    exact ⟨s, rfl, rfl, rfl, hp, s.keepsAllBut_refl _⟩
  | succ k ih =>
    intro s rest hb hr hp
    obtain ⟨u, hstep, hDT, hST, hhost, hu⟩ := step_tick_counts_down hb hr
      (hp.trans (by rw [List.replicate_succ, List.cons_append]))
    have hrunning : u.running := (congrArg FaultStatus.halted (hu .faultStatus (by simp))).trans hr
    obtain ⟨t, hrun, hDT', hST', hrest, ht⟩ := ih u rest (by rw [hhost]; exact hb) hrunning (by rw [hhost])
    refine ⟨t, (run_succ_of_step k hstep).trans hrun, ?_, ?_, hrest, State.keepsAllBut_trans hu ht⟩
    · omega
    · omega

end Sys2Proof.Machine
end

section
/-! PROOFS. Decoding loses nothing (30_encoding.md rule R64): the word a fault records is the word fetched. -/

namespace Sys2Proof

section
variable {w : Word} {op : BitVec 4}

theorem encA_of_fieldOp (hop : fieldOp w = op) : encA op (fieldNNN w) = w := hop ▸ encA_fields w

theorem encXK_of_fieldOp (hop : fieldOp w = op) : encXK op (fieldX w) (fieldKK w) = w := hop ▸ encXK_fields w

theorem encXK_of_fields {kk : Byte} (hop : fieldOp w = op) (hkk : fieldKK w = kk) : encXK op (fieldX w) kk = w :=
  hkk ▸ encXK_of_fieldOp hop

theorem encXYN_of_fields {n : BitVec 4} (hop : fieldOp w = op) (hn : fieldN w = n) :
    encXYN op (fieldX w) (fieldY w) n = w := by
  subst hop hn; exact encXYN_fields w

end

/-- A word that decodes is the encoding of what it decodes to, family by family. -/
theorem encode_of_decodeWord {w : Word} {i : Instr} (h : decodeWord w = some i) : encode i = w := by
  unfold decodeWord at h
  split at h <;> rename_i hop
  case h_1 => -- 00E0, 00EE: no operand
    split at h
    · next hw => cases h; exact hw.symm
    · split at h
      · next hw => cases h; exact hw.symm
      · cases h
  case h_2 | h_3 | h_10 => -- 1nnn, 2nnn, Annn: format A
    cases h; exact encA_of_fieldOp hop
  case h_4 | h_5 | h_7 | h_8 | h_11 => -- 3xkk, 4xkk, 6xkk, 7xkk, Cxkk: format XK
    cases h; exact encXK_of_fieldOp hop
  case h_6 => -- 5xy0: format XY
    split at h
    · next hn => cases h; exact encXYN_of_fields hop hn
    · cases h
  case h_9 => -- the 8xy family: format XY
    split at h <;> rename_i hn <;> cases h
    all_goals exact encXYN_of_fields hop hn
  case h_12 => -- Dxyn: format XYN
    cases h
    exact encXYN_of_fields hop (by simp)
  case h_13 | h_14 => -- the Ex and Fx families: format XS
    split at h <;> rename_i hkk <;> cases h
    all_goals exact encXK_of_fields hop hkk
  case h_15 => cases h -- no row

end Sys2Proof
end

section
/-! PROOFS. Construction and the invariant (R36, R180, R155). -/

namespace Sys2Proof.Machine

/-! ### The reset state -/

/-- The default glyphs as the `FONT` a LOAD takes (R183). -/
def defaultFontVector : Vector Byte Config.fontSize := ⟨Memory.defaultFont.toArray, by decide⟩

/-- A LOAD of the default glyphs and no image lists no cell. -/
theorem ofLoad_defaultFont_nil : Memory.ofLoad defaultFontVector [] = [] := by decide

theorem load_defaultFont_nil : State.load defaultFontVector [] = some State.reset := by
  simp [State.load, ofLoad_defaultFont_nil, State.reset]

/-- A STEP of a running block at a word that no row of the opcode map accepts (R66). -/
theorem runStep_of_invalid {s : State} {w : Word} (hr : s.status.halted = false) (hf : s.fetch = some w)
    (hd : decodeWord w = none) : runStep s = .next (s.raise .invalidOpcode w) := by
  simp [runStep, hr, hf, hd]

theorem reset_fetch : State.reset.fetch = some 0 := by decide

/-- Settles O53: the STEP of the empty queue fetches the word 0, which no row of the opcode map accepts. -/
theorem resetIsTheEmptyLoad : Obligations.ResetIsTheEmptyLoad := by
  refine ⟨⟨defaultFontVector, rfl, load_defaultFont_nil⟩, fun a ha => Memory.background_of_ge ha, ?_⟩
  obtain ⟨u, hu⟩ : ∃ u, State.reset.stepEntry = some u := ⟨_, rfl⟩
  obtain ⟨p, rfl⟩ := stepEntry_eq _ _ hu
  have hraise : runStep { State.reset with host := p } = _ := runStep_of_invalid rfl reset_fetch (by decide)
  exact ⟨_, (step_of_stepEntry _ _ hu).trans hraise, rfl, State.keepsAllBut_trans
    (State.keepsAllBut_mono (by simp) (State.keepsAllBut_setHost _ p)) (State.keepsAllBut_raise _ _ _)⟩

/-- A newly loaded block meets the invariant, whatever its memory lists in canonical form. -/
theorem inv_reset_with_mem {m : Memory} (hm : m.wf = true) : State.Inv { State.reset with mem := m } where
  memCanonical := hm
  pcBound := by simp [State.reset]
  returnBound j := by simp [State.reset]
  runningClear _ := rfl
  haltedRecord h := by cases h
  haltedWord h := by cases h

/-- Settles O58: the reset state is a newly loaded block with no cell listed. -/
theorem resetMeetsTheInvariant : Obligations.ResetMeetsTheInvariant := inv_reset_with_mem (m := []) rfl

/-! ### What each end of a step keeps of the invariant -/

section
variable {s : State}

/-- The invariant says nothing of the host port. -/
theorem State.Inv.withHost (h : s.Inv) (p : HostPort) : State.Inv { s with host := p } :=
  ⟨h.memCanonical, h.pcBound, h.returnBound, h.runningClear, h.haltedRecord, h.haltedWord⟩

/-- The invariant says nothing of the timers. -/
theorem State.Inv.withTimers (h : s.Inv) (d t : Byte) : State.Inv { s with DT := d, ST := t } :=
  ⟨h.memCanonical, h.pcBound, h.returnBound, h.runningClear, h.haltedRecord, h.haltedWord⟩

theorem inv_tick (h : s.Inv) : (tick s).Inv := by
  unfold tick
  split
  · exact h.withHost _
  · exact (h.withTimers (countdown s.DT) (countdown s.ST)).withHost { s.host with result := .ok }

theorem inv_loadTx (h : s.Inv) (font : Vector Byte Config.fontSize) (image : List Byte) :
    (loadTx font image s).Inv := by
  by_cases hle : image.length ≤ Config.maxImage
  · have hload : State.load font image = some { State.reset with mem := Memory.ofLoad font image } :=
      if_neg (Nat.not_lt.mpr hle)
    rw [loadTx_of_some font image s _ hload]
    exact (inv_reset_with_mem (Memory.wf_ofLoad font hle)).withHost _
  · have hload : State.load font image = none := if_pos (Nat.lt_of_not_le hle)
    rw [loadTx_of_none font image s hload]
    exact h.withHost _

theorem FaultKind.code_mem (k : FaultKind) : k.code ∈ [1#4, 2#4, 3#4, 5#4, 6#4, 7#4] := by
  cases k <;> decide

/-- A fault records where it stands; the invariant needs its word to be the one fetched, if one was. -/
theorem inv_raise (h : s.Inv) (k : FaultKind) (w : Word)
    (hw : s.fetch = some w ∨ (s.fetch = none ∧ k = .pcOutOfRange ∧ w = 0)) : (s.raise k w).Inv where
  memCanonical := h.memCanonical
  pcBound := h.pcBound
  returnBound := h.returnBound
  runningClear hr := by cases hr
  haltedRecord _ := ⟨k.code_mem, rfl⟩
  haltedWord _ := hw.imp_right fun ⟨hf, hk, hw⟩ => ⟨hf, hk ▸ rfl, hw⟩

/-- A STEP at a pc from which it fetched moves pc to 0x1002 at most (R25). -/
theorem PcTarget.toNat_le {w : Word} (h : PcTarget s w) (hpc : s.pc.toNat ≤ 0xFFE)
    (hret : ∀ j : Fin Config.stackSlots, s.stack[j.val].toNat ≤ 0x1000) : w.toNat ≤ 0x1002 := by
  cases h with
  | stay => omega
  | next | skip => bv_omega
  | address nnn => have := nnn.isLt; rw [addr16_toNat]; omega
  | popped j => have := hret j; omega

theorem Completed.returnBound {i : Instr} {t : State} (hc : Completed i s t) (hpc : s.pc.toNat ≤ 0xFFE)
    (hret : ∀ j : Fin Config.stackSlots, s.stack[j.val].toNat ≤ 0x1000) (j : Fin Config.stackSlots) :
    t.stack[j.val].toNat ≤ 0x1000 := by
  rcases hc.stack with hs | ⟨_, hlt, hs⟩
  · rw [hs]; exact hret j
  · have hpush : (s.pc + 2).toNat ≤ 0x1000 := by bv_omega
    simp only [hs, Vector.getElem_set]
    split
    · exact hpush
    · exact hret j

theorem Completed.wf_mem {i : Instr} {t : State} (hc : Completed i s t) (h : s.mem.wf = true) : t.mem.wf = true := by
  rcases hc.mem with hm | ⟨bytes, _, hle, hm⟩
  · rw [hm]; exact h
  · rw [hm]; exact Memory.wf_writeBytes h hle

/-- An instruction that a running block completes leaves it running. -/
theorem inv_completed {i : Instr} {t : State} (h : s.Inv) (hr : s.running) (hpc : s.pc.toNat ≤ 0xFFE)
    (hc : Completed i s t) : t.Inv := by
  have hrun : t.status.halted = false := (congrArg FaultStatus.halted hc.status_eq).trans hr
  have not_halted (ht : t.status.halted = true) : False := by simp [hrun] at ht
  exact {
    memCanonical := hc.wf_mem h.memCanonical
    pcBound := hc.pc.toNat_le hpc h.returnBound
    returnBound := hc.returnBound hpc h.returnBound
    runningClear := fun _ => hc.status_eq.trans (h.runningClear hr)
    haltedRecord := fun ht => (not_halted ht).elim
    haltedWord := fun ht => (not_halted ht).elim }

theorem pc_le_of_fetch {w : Word} (h : s.fetch = some w) : s.pc.toNat ≤ 0xFFE := by
  by_contra hgt
  rw [s.fetch_of_gt (Nat.lt_of_not_le hgt)] at h
  cases h

/-- The instruction fetched, run: it completes, or raises a fault whose word is the one fetched (R64). -/
theorem inv_exec {i : Instr} {t : State} {w : Word} (h : s.Inv) (hr : s.running) (hf : s.fetch = some w)
    (hd : decodeWord w = some i) (hx : exec i s = .next t) : t.Inv := by
  rcases completed_or_raised hx with hc | ⟨k, rfl⟩
  · exact inv_completed h hr (pc_le_of_fetch hf) hc
  · exact inv_raise h k _ (.inl (by rw [encode_of_decodeWord hd]; exact hf))

end

/-- Settles O59, by what a step can be: a LOAD, a TICK, or a STEP that answers Halted, raises a fault or executes. -/
theorem everyStepKeepsTheInvariant : Obligations.EveryStepKeepsTheInvariant := by
  intro s t h hstep
  rcases step_cases s t hstep with ⟨font, image, rest, _, rfl⟩ | ⟨rest, _, rfl⟩ | ⟨p, _, hs⟩
  · exact inv_loadTx (h.withHost _) font image
  · exact inv_tick (h.withHost _)
  · have hp : State.Inv { s with host := p } := h.withHost p
    rcases hs with ⟨_, rfl⟩ | ⟨_, hpc, rfl⟩ | ⟨_, w, hf, _, rfl⟩ | ⟨hr, w, i, hf, hd, hx⟩
    · exact hp.withHost _
    · exact inv_raise hp _ _ (.inr ⟨s.fetch_of_gt hpc, rfl, rfl⟩)
    · exact inv_raise hp _ _ (.inl hf)
    · exact inv_exec hp hr hf hd hx

end Sys2Proof.Machine
end

section
/-! PROOFS. What instructions do not read (R30, R35): the sound timer, the previous pressed set, the random byte. -/

namespace Sys2Proof.Machine

/-- The state with other values of the three elements that at most one instruction reads. -/
def State.withUnread (s : State) (st : Byte) (p : KeyMask) (b : Byte) : State :=
  { s with ST := st, prevKeys := p, host := { s.host with rnd := b } }

/-- An instruction that reads none of the three, and is not Fx18, ends alike whatever they are: it completes the same
update, or it raises the same fault. Fx0A may see the latch only as it is, and Cxkk the random byte. -/
theorem exec_withUnread (i : Instr) (s : State) (st : Byte) (p : KeyMask) (b : Byte) (hst : ∀ x, i ≠ .ldStVx x)
    (hp : p = s.prevKeys ∨ ∀ x, i ≠ .ldVxK x) (hb : b = s.host.rnd ∨ ∀ x kk, i ≠ .rnd x kk) :
    (∃ (u : State) (w : Word), exec i s = .next (u.commit w) ∧
      exec i (s.withUnread st p b) = .next ((u.withUnread st p b).commit w) ∧ u.ST = s.ST ∧ u.host = s.host) ∨
    ∃ k, exec i s = .next (s.raise k (encode i)) ∧
      exec i (s.withUnread st p b) = .next ((s.withUnread st p b).raise k (encode i)) := by
  cases i with
  | ret =>
    rcases Nat.eq_zero_or_pos s.depth.val with h | h
    · exact .inr ⟨_, exec_ret_of_empty s h, exec_ret_of_empty (s.withUnread st p b) h⟩
    · exact .inl ⟨_, _, exec_ret_of_pos s h, exec_ret_of_pos (s.withUnread st p b) h, rfl, rfl⟩
  | call nnn =>
    rcases Nat.lt_or_ge s.depth.val 16 with h | h
    · exact .inl ⟨_, _, exec_call_of_lt s nnn h, exec_call_of_lt (s.withUnread st p b) nnn h, rfl, rfl⟩
    · have hfull : s.depth.val = 16 := Nat.le_antisymm (depth_le s) h
      exact .inr ⟨_, exec_call_of_full s nnn hfull, exec_call_of_full (s.withUnread st p b) nnn hfull⟩
  | drw x y n =>
    by_cases h : n = 0 ∨ s.I.toNat + n - 1 ≤ 0xFFF
    · exact .inl ⟨_, _, exec_drw_of_legal s x y n h, exec_drw_of_legal (s.withUnread st p b) x y n h, rfl, rfl⟩
    · have h0 : 0 < n := by omega
      have hgt : s.I.toNat + n - 1 > 0xFFF := by omega
      exact .inr ⟨_, exec_drw_of_gt s x y n h0 hgt, exec_drw_of_gt (s.withUnread st p b) x y n h0 hgt⟩
  | addI x =>
    rcases Nat.lt_or_ge 0xFFFF (s.I.toNat + (s.reg x).toNat) with h | h
    · exact .inr ⟨_, exec_addI_of_gt s x h, exec_addI_of_gt (s.withUnread st p b) x h⟩
    · exact .inl ⟨_, _, exec_addI_of_le s x h, exec_addI_of_le (s.withUnread st p b) x h, rfl, rfl⟩
  | ldB x =>
    rcases Nat.lt_or_ge 0xFFF (s.I.toNat + 2) with h | h
    · exact .inr ⟨_, exec_ldB_of_gt s x h, exec_ldB_of_gt (s.withUnread st p b) x h⟩
    · exact .inl ⟨_, _, exec_ldB_of_legal s x h, exec_ldB_of_legal (s.withUnread st p b) x h, rfl, rfl⟩
  | storeRegs x =>
    rcases Nat.lt_or_ge 0xFFF (s.I.toNat + x.val) with h | h
    · exact .inr ⟨_, exec_storeRegs_of_gt s x h, exec_storeRegs_of_gt (s.withUnread st p b) x h⟩
    · exact .inl ⟨_, _, exec_storeRegs_of_legal s x h, exec_storeRegs_of_legal (s.withUnread st p b) x h, rfl, rfl⟩
  | loadRegs x =>
    rcases Nat.lt_or_ge 0xFFF (s.I.toNat + x.val) with h | h
    · exact .inr ⟨_, exec_loadRegs_of_gt s x h, exec_loadRegs_of_gt (s.withUnread st p b) x h⟩
    · exact .inl ⟨_, _, exec_loadRegs_of_legal s x h, exec_loadRegs_of_legal (s.withUnread st p b) x h, rfl, rfl⟩
  | ldVxK x =>
    obtain rfl : p = s.prevKeys := hp.resolve_right fun h => h x rfl
    have hrel : (s.withUnread st s.prevKeys b).released = s.released := rfl
    cases h : s.released with
    | none => exact .inl ⟨_, _, exec_ldVxK_of_none x h, exec_ldVxK_of_none x (hrel.trans h), rfl, rfl⟩
    | some k => exact .inl ⟨_, _, exec_ldVxK_of_some x h, exec_ldVxK_of_some x (hrel.trans h), rfl, rfl⟩
  | rnd x kk =>
    obtain rfl : b = s.host.rnd := hb.resolve_right fun h => h x kk rfl
    exact .inl ⟨_, _, rfl, rfl, rfl, rfl⟩
  | ldStVx x => exact absurd rfl (hst x)
  | seImm | sneImm | seReg | skp | sknp =>
    exact .inl ⟨s, _, congrArg _ (s.skipIf_eq_commit _), congrArg _ (State.skipIf_eq_commit _ _), rfl, rfl⟩
  | _ => exact .inl ⟨_, _, rfl, rfl, rfl, rfl⟩

/-- Settles O49: Fx18 overwrites the sound timer, and every other instruction ends alike whatever it is. -/
theorem noInstructionReadsTheSoundTimer : Obligations.NoInstructionReadsTheSoundTimer := by
  intro i s t b h
  by_cases hi : ∃ x, i = .ldStVx x
  · obtain ⟨x, rfl⟩ := hi
    cases h
    simp only [Instr.ldStVx.injEq, exists_eq', if_true]
    rfl
  · rw [if_neg hi]
    rcases exec_withUnread i s b s.prevKeys s.host.rnd (fun x hx => hi ⟨x, hx⟩) (.inl rfl) (.inl rfl) with
      ⟨u, w, hs, hu, _, hhost⟩ | ⟨k, hs, hu⟩
    · cases hs.symm.trans h
      refine hu.trans ?_
      simp [State.withUnread, State.commit, ← hhost]
    · cases hs.symm.trans h
      exact hu

/-- Settles O50: an instruction that completes overwrites the latch, and a fault leaves it. -/
theorem onlyFx0AObservesTheLatch : Obligations.OnlyFx0AObservesTheLatch := by
  intro i s t p hK h
  by_cases hi : ∃ x, i = .ldStVx x
  · obtain ⟨x, rfl⟩ := hi
    cases h
    exact ⟨s.host.keys, rfl⟩
  · rcases exec_withUnread i s s.ST p s.host.rnd (fun x hx => hi ⟨x, hx⟩) (.inr hK) (.inl rfl) with
      ⟨u, w, hs, hu, hST, hhost⟩ | ⟨k, hs, hu⟩
    · cases hs.symm.trans h
      refine ⟨u.host.keys, hu.trans ?_⟩
      simp [State.withUnread, State.commit, ← hhost, ← hST]
    · cases hs.symm.trans h
      exact ⟨p, hu⟩

end Sys2Proof.Machine
end

section
/-! PROOFS. Memory (20_memory.md): the access past 0xFFF, the bytes stored as a fetch sees them, and who writes memory
and the display. -/

namespace Sys2Proof.Machine

/-! ### The access past 0xFFF (R44) -/

/-- Settles O22: each of the four accessing instructions has its equation for the illegal access, and raising a fault
touches the fault status and the host's result only. -/
theorem accessPastMemoryFaults : Obligations.AccessPastMemoryFaults := by
  intro s i len hi h0 hgt
  have hraise : exec i s = .next (s.raise .memoryOutOfRange (encode i)) := by
    rcases hi with ⟨x, y, rfl⟩ | ⟨x, rfl, rfl⟩ | ⟨x, rfl, rfl⟩ | ⟨x, rfl, rfl⟩
    · exact exec_drw_of_gt s x y len h0 hgt
    · exact exec_ldB_of_gt s x hgt
    · exact exec_storeRegs_of_gt s x hgt
    · exact exec_loadRegs_of_gt s x hgt
  exact ⟨_, hraise, rfl, rfl, s.keepsAllBut_raise _ _⟩

/-! ### The bytes stored (R42, R50, R124) -/

/-- After an Fx55 within memory the byte at `I + r` is the register stored there. -/
theorem read_of_storeRegs {s t : State} {x r : RegIdx} (hwf : s.mem.wf = true) (hle : s.I.toNat + x.val ≤ 0xFFF)
    (h : exec (.storeRegs x) s = .next t) (hr : r ≤ x) : Memory.read t.mem (s.I.toNat + r.val) = s.reg r := by
  rw [exec_storeRegs_of_legal s x hle] at h
  cases h
  have hrx : r.val ≤ x.val := hr
  have hlen := s.regsThrough_length x
  have hrun : s.I.toNat + (s.regsThrough x).length ≤ Config.memSize := by simp only [Config.memSize]; omega
  have hlt : r.val < (s.regsThrough x).length := by omega
  calc Memory.read (Memory.writeBytes s.mem s.I.toNat (s.regsThrough x)) (s.I.toNat + r.val)
      = (s.regsThrough x).getD r.val 0 := by
        rw [Memory.read_writeBytes hwf hrun, if_pos (by omega), Nat.add_sub_cancel_left]
    _ = (s.regsThrough x)[r.val] := (List.getElem_eq_getD 0).symm
    _ = s.reg r := s.regsThrough_getElem x r.val hlt

/-- Settles O23: the two bytes at pc are the two registers stored, the lower address first. -/
theorem fetchSeesStoredBytes : Obligations.FetchSeesStoredBytes := by
  intro s t u x r r' hwf hle h hsucc hr' hmem hpc
  have hx : r'.val ≤ x.val := hr'
  have hr : r ≤ x := Fin.le_def.mpr (by omega)
  have hhi : Memory.read u.mem u.pc.toNat = s.reg r := by rw [hmem, hpc]; exact read_of_storeRegs hwf hle h hr
  have hlo : Memory.read u.mem (u.pc.toNat + 1) = s.reg r' := by
    rw [hmem, hpc, Nat.add_assoc, hsucc]; exact read_of_storeRegs hwf hle h hr'
  refine ⟨_, u.fetch_of_le (by omega), ?_⟩
  rw [hhi, hlo, wordOfBytes_toNat]

/-! ### The writers of memory and the display (R28, R52, R134) -/

theorem memory_mem_writes {i : Instr} (h : Element.memory ∈ i.writes) : (∃ x, i = .ldB x) ∨ ∃ x, i = .storeRegs x := by
  cases i <;> simp [Instr.writes, regsUpTo] at h ⊢

theorem display_mem_writes {i : Instr} (h : Element.display ∈ i.writes) : i = .cls ∨ ∃ x y n, i = .drw x y n := by
  cases i <;> simp [Instr.writes, regsUpTo] at h ⊢

/-- Settles O45: memory and the display are no timers, so each changes only where it stands in the row of the word
fetched. -/
theorem onlyStoresAndDrawsReachMemoryAndDisplay : Obligations.OnlyStoresAndDrawsReachMemoryAndDisplay := by
  intro s t h hl
  refine ⟨fun hmem => ?_, fun hdisp => ?_⟩
  · rcases written_of_step_changed h hl hmem (by simp) with ⟨_, he⟩ | ⟨w, i, hf, hd, hw⟩
    · simp at he
    · exact ⟨w, i, hf, hd, memory_mem_writes hw⟩
  · rcases written_of_step_changed h hl hdisp (by simp) with ⟨_, he⟩ | ⟨w, i, hf, hd, hw⟩
    · simp at he
    · exact ⟨w, i, hf, hd, display_mem_writes hw⟩

end Sys2Proof.Machine
end

section
/-! PROOFS. Encoding (30_encoding.md): decoder and encoder are each other's inverse, the opcode map is what the decoder
follows, and a word outside it faults (R64 to R66). -/

namespace Sys2Proof

/-! ### Decode of encode (R61, R62) -/

/-- A well-formed instruction's encoding decodes to it, format by format. -/
theorem decodeWord_encode {i : Instr} (h : i.wf = true) : decodeWord (encode i) = some i := by
  cases i with
  | cls | ret => rfl
  | jp | call | ldI => -- format A
    simp [decodeWord, encode, fieldOp_encA, fieldNNN_encA]
  | seImm | sneImm | ldImm | addImm | rnd => -- format XK
    simp [decodeWord, encode, fieldOp_encXK, fieldX_encXK, fieldKK_encXK]
  | skp | sknp | ldVxDt | ldVxK | ldDtVx | ldStVx | addI | ldF | ldB | storeRegs | loadRegs => -- format XS
    simp [decodeWord, encode, fieldOp_encXK, fieldX_encXK, fieldKK_encXK]
  | seReg | ldReg | andReg | xorReg | addReg | subReg => -- format XY
    simp [decodeWord, encode, fieldOp_encXYN, fieldX_encXYN, fieldY_encXYN, fieldN_encXYN]
  | drw x y n => -- format XYN: the count fits its four bits
    have hn : n < 16 := by simpa [Instr.wf, rowCountOk, Nat.lt_succ_iff] using h
    simp [decodeWord, encode, fieldOp_encXYN, fieldX_encXYN, fieldY_encXYN, fieldN_encXYN, Nat.mod_eq_of_lt hn]

/-- Settles O54: a field of an encoded word reads as the operand put there. -/
theorem decodeOfEncodeIsTheInstruction : Obligations.DecodeOfEncodeIsTheInstruction :=
  fun _ => decodeWord_encode

/-! ### Encode of decode (R63, R64) -/

theorem decodeWord_of_fieldOp_drw {w : Word} (hop : fieldOp w = 0xD#4) :
    decodeWord w = some (.drw (fieldX w) (fieldY w) (fieldN w).toNat) := by
  simp [decodeWord, hop]

/-- What a word decodes to is well-formed: the row count of Dxyn is a four-bit field, and nothing else is bounded. -/
theorem wf_of_decodeWord {w : Word} {i : Instr} (h : decodeWord w = some i) : i.wf = true := by
  cases i with
  | drw x y n =>
    have hop : fieldOp w = 0xD#4 := encode_of_decodeWord h ▸ fieldOp_encXYN 0xD x y (BitVec.ofNat 4 n)
    obtain ⟨-, -, rfl⟩ := Instr.drw.inj (Option.some.inj (h.symm.trans (decodeWord_of_fieldOp_drw hop)))
    have := (fieldN w).isLt
    simp only [Instr.wf, rowCountOk, decide_eq_true_eq]
    omega
  | _ => rfl

/-- Settles O55: a field of a decoded word was read where the encoder puts it. -/
theorem encodeOfDecodeIsTheWord : Obligations.EncodeOfDecodeIsTheWord :=
  fun _ _ h => ⟨encode_of_decodeWord h, wf_of_decodeWord h⟩

/-! ### The opcode map (R65) -/

section
variable {w m v : Word}

/-- Where the mask is all ones, the bits of an accepted word are those of the match value. -/
theorem extractLsb'_eq_of_and {k n : Nat} (h : w &&& m = v) (hm : m.extractLsb' k n = BitVec.allOnes n) :
    w.extractLsb' k n = v.extractLsb' k n := by
  rw [← h, BitVec.extractLsb'_and, hm, BitVec.and_allOnes]

theorem fieldOp_eq_of_and (h : w &&& m = v) (hm : fieldOp m = 0xF#4) : fieldOp w = fieldOp v :=
  extractLsb'_eq_of_and h hm

theorem fieldN_eq_of_and (h : w &&& m = v) (hm : fieldN m = 0xF#4) : fieldN w = fieldN v :=
  extractLsb'_eq_of_and h hm

theorem fieldKK_eq_of_and (h : w &&& m = v) (hm : fieldKK m = 0xFF#8) : fieldKK w = fieldKK v :=
  extractLsb'_eq_of_and h hm

end

/-- A word that an instruction's row accepts decodes to an instruction of that row, mask by mask. -/
theorem row_decodeWord_of_accepts {i : Instr} {w : Word} (h : w &&& i.row.mask = i.row.value) :
    (decodeWord w).map Instr.row = some i.row := by
  cases i <;> simp only [Instr.row] at h ⊢
  case cls | ret => -- mask FFFF
    obtain rfl : w = _ := BitVec.and_allOnes.symm.trans h
    rfl
  case jp | call | seImm | sneImm | ldImm | addImm | ldI | rnd | drw => -- mask F000
    rw [decodeWord, fieldOp_eq_of_and h rfl]
    rfl
  case seReg | ldReg | andReg | xorReg | addReg | subReg => -- mask F00F
    rw [decodeWord, fieldOp_eq_of_and h rfl, fieldN_eq_of_and h rfl]
    rfl
  case skp | sknp | ldVxDt | ldVxK | ldDtVx | ldStVx | addI | ldF | ldB | storeRegs | loadRegs => -- mask F0FF
    rw [decodeWord, fieldOp_eq_of_and h rfl, fieldKK_eq_of_and h rfl]
    rfl

theorem row_mem_opcodeRows (i : Instr) : i.row ∈ opcodeRows := by
  cases i <;> simp [Instr.row, opcodeRows]

/-- Every row of the opcode map is the row of an instruction: one for each, with its operands at zero. -/
theorem opcodeRows_eq_map_row : opcodeRows =
    [.cls, .ret, .jp 0, .call 0, .seImm 0 0, .sneImm 0 0, .seReg 0 0, .ldImm 0 0, .addImm 0 0, .ldReg 0 0, .andReg 0 0,
      .xorReg 0 0, .addReg 0 0, .subReg 0 0, .ldI 0, .rnd 0 0, .drw 0 0 0, .skp 0, .sknp 0, .ldVxDt 0, .ldVxK 0,
      .ldDtVx 0, .ldStVx 0, .addI 0, .ldF 0, .ldB 0, .storeRegs 0, .loadRegs 0].map Instr.row := rfl

theorem exists_row_eq {r : OpcodeRow} (hr : r ∈ opcodeRows) : ∃ i : Instr, i.row = r := by
  rw [opcodeRows_eq_map_row] at hr
  obtain ⟨i, _, hi⟩ := List.mem_map.mp hr
  exact ⟨i, hi⟩

open Laws.OpcodeRow in
/-- The word of an instruction stands in its row of R65. -/
theorem row_accepts_encode (i : Instr) : encode i &&& i.row.mask = i.row.value := by
  have h : Statement i := match i with
    | .cls => cls
    | .ret => ret
    | .jp nnn => jp nnn
    | .call nnn => call nnn
    | .seImm x kk => seImm x kk
    | .sneImm x kk => sneImm x kk
    | .seReg x y => seReg x y
    | .ldImm x kk => ldImm x kk
    | .addImm x kk => addImm x kk
    | .ldReg x y => ldReg x y
    | .andReg x y => andReg x y
    | .xorReg x y => xorReg x y
    | .addReg x y => addReg x y
    | .subReg x y => subReg x y
    | .ldI nnn => ldI nnn
    | .rnd x kk => rnd x kk
    | .drw x y n => drw x y n
    | .skp x => skp x
    | .sknp x => sknp x
    | .ldVxDt x => ldVxDt x
    | .ldVxK x => ldVxK x
    | .ldDtVx x => ldDtVx x
    | .ldStVx x => ldStVx x
    | .addI x => addI x
    | .ldF x => ldF x
    | .ldB x => ldB x
    | .storeRegs x => storeRegs x
    | .loadRegs x => loadRegs x
  exact eq_of_beq h

/-- The decoder is the opcode map: a word decodes into a row exactly when the map has the row and the row accepts it. -/
theorem row_decodeWord_eq_iff {r : OpcodeRow} {w : Word} :
    (decodeWord w).map Instr.row = some r ↔ r ∈ opcodeRows ∧ w &&& r.mask = r.value := by
  constructor
  · intro h
    obtain ⟨i, hi, rfl⟩ := Option.map_eq_some_iff.mp h
    exact ⟨row_mem_opcodeRows i, encode_of_decodeWord hi ▸ row_accepts_encode i⟩
  · rintro ⟨hr, h⟩
    obtain ⟨i, rfl⟩ := exists_row_eq hr
    exact row_decodeWord_of_accepts h

/-- A word decodes exactly when a row of the opcode map accepts it. -/
theorem isSome_decodeWord_iff {w : Word} :
    (decodeWord w).isSome = true ↔ ∃ r ∈ opcodeRows, w &&& r.mask = r.value := by
  simp only [← row_decodeWord_eq_iff, ← Option.isSome_iff_exists, Option.isSome_map]

/-- Settles O56: the rows that accept a word are the one row it decodes into, if it decodes. -/
theorem decodeFollowsTheOpcodeMap : Obligations.DecodeFollowsTheOpcodeMap := by
  refine ⟨fun w => isSome_decodeWord_iff, fun w r hr q hq hwr hwq => ?_, fun w i h => ?_⟩
  · have hdr := row_decodeWord_eq_iff.mpr ⟨hr, hwr⟩
    have hdq := row_decodeWord_eq_iff.mpr ⟨hq, hwq⟩
    exact Option.some.inj (hdr.symm.trans hdq)
  · exact row_decodeWord_eq_iff.mp (by rw [h, Option.map_some])

/-- Settles O57: the decoder run on each word. -/
theorem sampleWordsDecode : Obligations.SampleWordsDecode := by
  unfold Obligations.SampleWordsDecode
  decide

end Sys2Proof

namespace Sys2Proof.Machine

/-! ### A word outside the opcode map (R66, R83) -/

/-- A fault raised in a STEP touches the fault status and the host port only, whatever host port it starts from. -/
theorem State.keepsAllBut_raise_withHost (s : State) (p : HostPort) (k : FaultKind) (w : Word) :
    s.keepsAllBut (State.raise { s with host := p } k w) [.faultStatus, .hostPort] :=
  State.keepsAllBut_trans (State.keepsAllBut_mono (by simp) (s.keepsAllBut_setHost p)) (State.keepsAllBut_raise _ k w)

/-- The word fetched is the two bytes at pc, the lower address first (R42). -/
theorem State.fetch_eq_of_toNat {s : State} {w : Word} (hpc : s.pc.toNat ≤ 0xFFE)
    (hw : w.toNat = (Memory.read s.mem s.pc.toNat).toNat * 256 + (Memory.read s.mem (s.pc.toNat + 1)).toNat) :
    s.fetch = some w := by
  rw [s.fetch_of_le hpc, BitVec.eq_of_toNat_eq (hw.trans (wordOfBytes_toNat _ _).symm)]

/-- Settles O39: a word that no row accepts does not decode, and the STEP that fetches it raises InvalidOpcode. -/
theorem invalidWordFaults : Obligations.InvalidWordFaults := by
  intro s u w hr hu hpc hw hrows
  have hd : decodeWord w = none := by
    rw [← Option.not_isSome_iff_eq_none, isSome_decodeWord_iff]
    exact fun ⟨r, hmem, h⟩ => hrows r hmem h
  obtain ⟨p, rfl⟩ := stepEntry_eq s u hu
  have hraise : runStep { s with host := p } = _ := runStep_of_invalid hr (State.fetch_eq_of_toNat hpc hw) hd
  exact ⟨_, (step_of_stepEntry s _ hu).trans hraise, rfl, rfl, s.keepsAllBut_raise_withHost p _ w⟩

end Sys2Proof.Machine
end

section
/-! PROOFS. The step cycle (40_step_cycle.md): what a step's transaction can be and where its STEP starts from, the STEP
of a halted block, the fetch out of range, the execution of the decoded word, and the table of the pc's moves. -/

namespace Sys2Proof.Machine

/-! ### The transaction of a step (R163) -/

section
variable {s u : State}

/-- The state a STEP starts from: the queued inputs are presented, or, with an empty queue, the keys last presented and
a fresh free byte. -/
theorem stepEntry_cases (h : s.stepEntry = some u) :
    (s.host.pending = [] ∧ u = State.present { s with host := { s.host with draws := s.host.draws + 1 } } s.host.keys
      (Config.rndDraw s.host.draws)) ∨
    ∃ keys rnd rest, s.host.pending = .step keys rnd :: rest ∧
      u = State.present { s with host := { s.host with pending := rest } } keys rnd := by
  unfold State.stepEntry at h
  split at h
  · cases h
  · split at h <;> rename_i hp <;> cases h
    · exact .inl ⟨hp, rfl⟩
    · exact .inr ⟨_, _, _, hp, rfl⟩

/-- A STEP takes its transaction off the queue; an empty queue stays empty. -/
theorem stepEntry_pending (h : s.stepEntry = some u) : u.host.pending = s.host.pending.tail := by
  rcases stepEntry_cases h with ⟨hp, rfl⟩ | ⟨keys, rnd, rest, hp, rfl⟩
  · simp [hp]
  · simp [hp]

/-- The next transaction of a block that exists is a STEP, a TICK or a LOAD. -/
theorem stepEntry_or_tick_of_no_load (hb : s.host.blockExists = true)
    (hl : ∀ font image rest, s.host.pending ≠ .load font image :: rest) :
    (∃ u, s.stepEntry = some u) ∨ ∃ rest, s.host.pending = .tick :: rest := by
  cases hp : s.host.pending with
  | nil => exact .inl ⟨_, by simp only [State.stepEntry, hb, hp, Bool.true_eq_false, if_false]; rfl⟩
  | cons tx rest =>
    cases tx with
    | load font image => exact absurd hp (hl font image rest)
    | step keys rnd => exact .inl ⟨_, by simp only [State.stepEntry, hb, hp, Bool.true_eq_false, if_false]; rfl⟩
    | tick => exact .inr ⟨rest, rfl⟩

end

/-! ### A halted block (R89) -/

theorem tick_of_halted {s : State} (h : s.status.halted = true) : tick s = s.answerHalted := by
  simp [tick, h]

/-- Settles O37: a transaction that is no LOAD is a STEP or a TICK, and of a halted block either answers Halted. -/
theorem haltedBlockChangesNothing : Obligations.HaltedBlockChangesNothing := by
  intro s hb hr hl
  have hh : s.status.halted = true := by simpa [State.running] using hr
  rcases stepEntry_or_tick_of_no_load hb hl with ⟨u, hu⟩ | ⟨rest, hp⟩
  · have hpending := stepEntry_pending hu
    obtain ⟨p, rfl⟩ := stepEntry_eq s u hu
    exact ⟨_, (step_of_stepEntry s _ hu).trans (runStep_of_halted _ hh), rfl, hpending, s.keepsAllBut_setHost _⟩
  · refine ⟨_, (step_tick s rest hb hp).trans (congrArg _ (tick_of_halted hh)), rfl, ?_, s.keepsAllBut_setHost _⟩
    simp [hp]

/-! ### A STEP of a running block (R80, R82) -/

theorem runStep_of_pc_gt {s : State} (hr : s.status.halted = false) (hpc : s.pc.toNat > 0xFFE) :
    runStep s = .next (s.raise .pcOutOfRange 0) := by
  simp [runStep, hr, s.fetch_of_gt hpc]

theorem runStep_of_decoded {s : State} {w : Word} {i : Instr} (hr : s.status.halted = false)
    (hf : s.fetch = some w) (hd : decodeWord w = some i) : runStep s = exec i s := by
  simp [runStep, hr, hf, hd]

/-- Settles O38: the fetch comes before everything else of a running block's STEP, and it fails. -/
theorem fetchOutOfRangeFaults : Obligations.FetchOutOfRangeFaults := by
  intro s u hr hu hpc
  obtain ⟨p, rfl⟩ := stepEntry_eq s u hu
  have hraise : runStep { s with host := p } = _ := runStep_of_pc_gt hr hpc
  exact ⟨_, (step_of_stepEntry s _ hu).trans hraise, rfl, rfl, s.keepsAllBut_raise_withHost p _ 0⟩

/-- The bytes at pc decode as the word they assemble to (R42, R71). -/
theorem decodeWord_of_decode_bytesAtPc {s : State} {i : Instr} {rest : List Byte}
    (h : decode s.bytesAtPc = .instr i rest) :
    decodeWord (wordOfBytes (Memory.read s.mem s.pc.toNat) (Memory.read s.mem (s.pc.toNat + 1))) = some i := by
  simp only [State.bytesAtPc, decode] at h
  split at h
  · next hd => cases h; exact hd
  · cases h

/-- Settles O40: the word fetched is the one the bytes at pc decode as, and the host port of the state the STEP starts
from is read off the two ways a STEP can come. -/
theorem stepRunsTheDecodedInstruction : Obligations.StepRunsTheDecodedInstruction := by
  intro s u i hr hu hpc hd
  obtain ⟨p, hup⟩ := stepEntry_eq s u hu
  have hrun : runStep u = exec i u := by
    subst hup
    exact runStep_of_decoded hr (s.fetch_of_le hpc) (decodeWord_of_decode_bytesAtPc hd)
  refine ⟨(step_of_stepEntry s u hu).trans hrun, hup ▸ s.keepsAllBut_setHost p, ?_, stepEntry_pending hu, ?_⟩
  · rcases stepEntry_cases hu with ⟨_, rfl⟩ | ⟨keys, rnd, rest, _, rfl⟩ <;> rfl
  · rcases stepEntry_cases hu with ⟨hp, rfl⟩ | ⟨keys, rnd, rest, hp, rfl⟩
    · simp [hp]
    · simp [hp]

/-! ### The moves of the pc (R86) -/

section
variable {i : Instr} {s t u : State} {w : Word}

/-- Where an instruction that ends by `commit` leaves pc. -/
theorem pc_of_exec_commit (hx : exec i s = .next (u.commit w)) (h : exec i s = .next t) : t.pc = w := by
  cases hx.symm.trans h
  rfl

/-- An instruction that leaves the block running raised no fault. -/
theorem not_raised_of_running {k : FaultKind} (hx : exec i s = .next (s.raise k w)) (h : exec i s = .next t)
    (ht : t.running) : False := by
  cases hx.symm.trans h
  cases ht

/-- NEXT from a pc that was fetched from does not wrap. -/
theorem toNat_pc_of_exec_next (hpc : s.pc.toNat ≤ 0xFFE) (hx : exec i s = .next (u.commit (s.pc + 2)))
    (h : exec i s = .next t) : t.pc.toNat = s.pc.toNat + 2 := by
  rw [pc_of_exec_commit hx h]
  bv_omega

/-- SKIP and NEXT from a pc that was fetched from do not wrap; `p` is the condition of the skip. -/
theorem toNat_pc_of_exec_skipIf {c : Bool} {p : Prop} [Decidable p] (hpc : s.pc.toNat ≤ 0xFFE) (hc : c = true ↔ p)
    (hx : exec i s = .next (s.skipIf c)) (h : exec i s = .next t) :
    t.pc.toNat = s.pc.toNat + if p then 4 else 2 := by
  rw [s.skipIf_eq_commit c] at hx
  rw [pc_of_exec_commit hx h]
  by_cases hp : p
  · rw [if_pos (hc.mpr hp), if_pos hp]; bv_omega
  · rw [if_neg (mt hc.mp hp), if_neg hp]; bv_omega

end

/-- Settles O41: where each instruction's ending leaves pc; one that can fault has not, since the block runs on. -/
theorem pcMovesByTheTable : Obligations.PcMovesByTheTable := by
  intro i s t _ hpc h ht
  cases i with
  | jp nnn => exact (congrArg _ (pc_of_exec_commit rfl h)).trans (addr16_toNat nnn)
  | call nnn =>
    rcases Nat.lt_or_ge s.depth.val 16 with hlt | hge
    · exact (congrArg _ (pc_of_exec_commit (exec_call_of_lt s nnn hlt) h)).trans (addr16_toNat nnn)
    · exact (not_raised_of_running (exec_call_of_full s nnn (Nat.le_antisymm (depth_le s) hge)) h ht).elim
  | ret =>
    rcases Nat.eq_zero_or_pos s.depth.val with h0 | hpos
    · exact (not_raised_of_running (exec_ret_of_empty s h0) h ht).elim
    · have hj : s.depth.val - 1 < 16 := by have := depth_le s; omega
      exact ⟨⟨_, hj⟩, (Nat.sub_add_cancel hpos).symm, pc_of_exec_commit (exec_ret_of_pos s hpos) h⟩
  | seImm x kk => exact toNat_pc_of_exec_skipIf hpc beq_iff_eq rfl h
  | sneImm x kk => exact toNat_pc_of_exec_skipIf hpc bne_iff_ne rfl h
  | seReg x y => exact toNat_pc_of_exec_skipIf hpc beq_iff_eq rfl h
  | skp x => exact toNat_pc_of_exec_skipIf hpc (keyPressed_iff _ _) rfl h
  | sknp x =>
    have hnot : (!keyPressed s.host.keys (s.reg x)) = true ↔
        ¬((s.reg x).toNat ≤ 15 ∧ s.host.keys.getLsbD (s.reg x).toNat = true) := by
      rw [← keyPressed_iff, Bool.not_eq_true', Bool.not_eq_true]
    exact (toNat_pc_of_exec_skipIf hpc hnot rfl h).trans (by rw [ite_not])
  | ldVxK x =>
    cases hrel : s.released with
    | none => simp [pc_of_exec_commit (exec_ldVxK_of_none x hrel) h]
    | some k => simp [toNat_pc_of_exec_next hpc (exec_ldVxK_of_some x hrel) h]
  | addI x =>
    rcases Nat.lt_or_ge 0xFFFF (s.I.toNat + (s.reg x).toNat) with hgt | hle
    · exact (not_raised_of_running (exec_addI_of_gt s x hgt) h ht).elim
    · exact toNat_pc_of_exec_next hpc (exec_addI_of_le s x hle) h
  | drw x y n =>
    by_cases hle : n = 0 ∨ s.I.toNat + n - 1 ≤ 0xFFF
    · exact toNat_pc_of_exec_next hpc (exec_drw_of_legal s x y n hle) h
    · exact (not_raised_of_running (exec_drw_of_gt s x y n (by omega) (by omega)) h ht).elim
  | ldB x =>
    rcases Nat.lt_or_ge 0xFFF (s.I.toNat + 2) with hgt | hle
    · exact (not_raised_of_running (exec_ldB_of_gt s x hgt) h ht).elim
    · exact toNat_pc_of_exec_next hpc (exec_ldB_of_legal s x hle) h
  | storeRegs x =>
    rcases Nat.lt_or_ge 0xFFF (s.I.toNat + x.val) with hgt | hle
    · exact (not_raised_of_running (exec_storeRegs_of_gt s x hgt) h ht).elim
    · exact toNat_pc_of_exec_next hpc (exec_storeRegs_of_legal s x hle) h
  | loadRegs x =>
    rcases Nat.lt_or_ge 0xFFF (s.I.toNat + x.val) with hgt | hle
    · exact (not_raised_of_running (exec_loadRegs_of_gt s x hgt) h ht).elim
    · exact toNat_pc_of_exec_next hpc (exec_loadRegs_of_legal s x hle) h
  | _ => exact toNat_pc_of_exec_next hpc rfl h

end Sys2Proof.Machine
end

section
/-! PROOFS. Control flow and the call stack (41_control_flow.md): the conditional skips, the jump, and what 2nnn pushes
and 00EE pops. -/

namespace Sys2Proof.Machine

/-! ### The conditional skips (R86, R93 to R95) -/

section
variable (s : State)

/-- SKIP or NEXT, by the proposition `p` that the condition decides. -/
theorem State.skipIf_pc {c : Bool} {p : Prop} [Decidable p] (hc : c = true ↔ p) :
    (s.skipIf c).pc = if p then s.pc + 4 else s.pc + 2 := by
  rw [s.skipIf_eq_commit, State.commit_pc]
  exact if_congr hc rfl rfl

theorem State.skipIf_prevKeys (c : Bool) : (s.skipIf c).prevKeys = s.host.keys := by
  rw [s.skipIf_eq_commit, State.commit_prevKeys]

theorem State.keepsAllBut_skipIf (c : Bool) : s.keepsAllBut (s.skipIf c) [.pc, .latch] := by
  rw [s.skipIf_eq_commit]
  exact s.keepsAllBut_commit _

end

/-- Settles O9: 3xkk is a skip on equality with the immediate. -/
theorem seImmSkipsWhenEqual : Obligations.SeImmSkipsWhenEqual :=
  fun s _ _ => ⟨_, rfl, s.skipIf_pc beq_iff_eq, s.skipIf_prevKeys _, s.keepsAllBut_skipIf _⟩

/-- Settles O10: 4xkk is a skip on difference from the immediate, so the branches change places. -/
theorem sneImmSkipsWhenDifferent : Obligations.SneImmSkipsWhenDifferent :=
  fun s _ _ => ⟨_, rfl, (s.skipIf_pc bne_iff_ne).trans (ite_not _ _ _), s.skipIf_prevKeys _, s.keepsAllBut_skipIf _⟩

/-- Settles O11: 5xy0 is a skip on equality of the registers, and a register equals itself. -/
theorem seRegSkipsWhenRegistersEqual : Obligations.SeRegSkipsWhenRegistersEqual := by
  intro s x y
  have hpc : (s.skipIf (s.reg x == s.reg y)).pc = if s.reg x = s.reg y then s.pc + 4 else s.pc + 2 :=
    s.skipIf_pc beq_iff_eq
  refine ⟨_, rfl, hpc, ?_, s.skipIf_prevKeys _, s.keepsAllBut_skipIf _⟩
  rintro rfl
  exact hpc.trans (if_pos rfl)

/-! ### The jump (R91) -/

/-- Settles O12: the jump ends at the zero-extended address and does nothing else. -/
theorem jpSetsPc : Obligations.JpSetsPc :=
  fun s nnn => ⟨_, rfl, addr16_toNat nnn, rfl, s.keepsAllBut_commit _⟩

/-! ### The call stack (R90, R92) -/

section
variable {s t : State} {nnn : BitVec 12}

/-- Every slot after a 2nnn that completes (R92). -/
theorem slot_of_exec_call (hlt : s.depth.val < 16) (h : exec (.call nnn) s = .next t) (j : Fin Config.stackSlots) :
    t.stack[j.val] = if j.val = s.depth.val then s.pc + 2 else s.stack[j.val] := by
  rw [exec_call_of_lt s nnn hlt] at h
  cases h
  exact (Vector.getElem_set hlt j.isLt).trans (if_congr eq_comm rfl rfl)

theorem depth_of_exec_call (hlt : s.depth.val < 16) (h : exec (.call nnn) s = .next t) :
    t.depth.val = s.depth.val + 1 := by
  rw [exec_call_of_lt s nnn hlt] at h
  cases h
  rfl

end

/-- 00EE with `j + 1` return addresses on the stack pops the one in slot `j` (R90). -/
theorem exec_ret_of_depth_eq_succ {s : State} {j : Fin Config.stackSlots} (h : s.depth.val = j.val + 1) :
    exec .ret s = .next (({ s with depth := j.castSucc } : State).commit s.stack[j.val]) := by
  have hj : s.depth.val - 1 = j.val := by omega
  rw [exec_ret_of_pos s (by omega)]
  simp only [hj]
  rfl

/-- Settles O13: a call pushes while a slot is free, and else raises a fault, which touches the fault status and the
host's result only. -/
theorem callPushesOrOverflows : Obligations.CallPushesOrOverflows := by
  refine fun s nnn => ⟨fun hlt => ?_, fun hfull => ?_⟩
  · have hcall := exec_call_of_lt s nnn hlt
    exact ⟨_, hcall, slot_of_exec_call hlt hcall, depth_of_exec_call hlt hcall, addr16_toNat nnn, rfl,
      State.keepsAllBut_append (s.keepsAllBut_setStackDepth _ _) (State.keepsAllBut_commit _ _)⟩
  · exact ⟨_, exec_call_of_full s nnn hfull, rfl, rfl, s.keepsAllBut_raise _ _⟩

/-- Settles O14: a return pops while an address is on the stack, and else raises a fault, which touches the fault status
and the host's result only. -/
theorem retPopsOrUnderflows : Obligations.RetPopsOrUnderflows := by
  refine fun s => ⟨fun j hj => ?_, fun hempty => ?_⟩
  · exact ⟨_, exec_ret_of_depth_eq_succ hj, rfl, rfl, rfl,
      State.keepsAllBut_append (s.keepsAllBut_setDepth _) (State.keepsAllBut_commit _ _)⟩
  · exact ⟨_, exec_ret_of_empty s hempty, rfl, rfl, s.keepsAllBut_raise _ _⟩

/-- Settles O15: the return pops the slot at the call's old depth, which is the one the call wrote. -/
theorem returnResumesAfterCall : Obligations.ReturnResumesAfterCall := by
  intro s t t' nnn hlt hcall hstack hdepth
  have hslot : ∀ j : Fin Config.stackSlots,
      t'.stack[j.val] = if j.val = s.depth.val then s.pc + 2 else s.stack[j.val] :=
    fun j => hstack ▸ slot_of_exec_call hlt hcall j
  have htop : t'.depth.val = s.depth.val + 1 := hdepth ▸ depth_of_exec_call hlt hcall
  exact ⟨_, exec_ret_of_depth_eq_succ (j := ⟨s.depth.val, hlt⟩) htop, (hslot _).trans (if_pos rfl), rfl, rfl,
    fun j hj => (hslot j).trans (if_neg hj.ne)⟩

end Sys2Proof.Machine
end

section
/-! PROOFS. The register file and the ALU (42_alu.md): what the two kinds of register write leave in the registers, the
bytes they are given, and who reads the random byte. -/

namespace Sys2Proof.Machine

/-! ### Writing one register and ending (R100 to R104, R108) -/

section
variable (s : State)

/-- What is left of the state, apart from the register, by an instruction that writes one register. -/
theorem State.setReg_next_frame (x : RegIdx) (b : Byte) :
    (s.setReg x b).next.pc = s.pc + 2 ∧ (s.setReg x b).next.prevKeys = s.host.keys ∧
    s.keepsAllBut (s.setReg x b).next [.reg x, .pc, .latch] :=
  ⟨rfl, rfl, s.keepsAllBut_setReg_commit x b _⟩

/-- The register written holds the byte. -/
theorem State.reg_setReg_next_self (x : RegIdx) (b : Byte) : (s.setReg x b).next.reg x = b := s.reg_setReg_self x b

/-- VF is written only as the destination. -/
theorem State.reg_VF_setReg_next {x : RegIdx} (hx : x ≠ VF) (b : Byte) : (s.setReg x b).next.reg VF = s.reg VF :=
  s.reg_setReg_of_ne hx.symm b

end

/-- Settles O1: the byte written is the immediate. -/
theorem ldImmLoadsItsByte : Obligations.LdImmLoadsItsByte :=
  fun s x kk => ⟨_, rfl, s.reg_setReg_next_self x kk, s.setReg_next_frame x _⟩

/-- Settles O2: the byte written is the sum of two bytes, which wraps. -/
theorem addImmWrapsAndSetsNoFlag : Obligations.AddImmWrapsAndSetsNoFlag := by
  refine fun s x kk => ⟨_, rfl, ?_, fun hx => s.reg_VF_setReg_next hx _, s.setReg_next_frame x _⟩
  rw [s.reg_setReg_next_self, BitVec.toNat_add]

/-- Settles O3: the byte written is the old Vy. -/
theorem ldRegCopiesVy : Obligations.LdRegCopiesVy :=
  fun s x _ => ⟨_, rfl, s.reg_setReg_next_self x _, s.setReg_next_frame x _⟩

/-- Settles O4: the byte written is the AND of the old registers, bit by bit. -/
theorem andRegIsBitwiseAnd : Obligations.AndRegIsBitwiseAnd := by
  refine fun s x y => ⟨_, rfl, fun i _ => ?_, fun hx => s.reg_VF_setReg_next hx _, s.setReg_next_frame x _⟩
  rw [s.reg_setReg_next_self, BitVec.getLsbD_and]

/-- Settles O5: the byte written is the exclusive OR of the old registers, bit by bit. -/
theorem xorRegIsBitwiseXor : Obligations.XorRegIsBitwiseXor := by
  refine fun s x y => ⟨_, rfl, fun i _ => ?_, fun hx => s.reg_VF_setReg_next hx _, s.setReg_next_frame x _⟩
  rw [s.reg_setReg_next_self, BitVec.getLsbD_xor]

/-- Settles O8: the byte written is the random byte at the host port, masked bit by bit. -/
theorem rndMasksTheDrawnByte : Obligations.RndMasksTheDrawnByte := by
  refine fun s x kk => ⟨_, rfl, fun i _ => ?_, s.setReg_next_frame x _⟩
  rw [s.reg_setReg_next_self, BitVec.getLsbD_and]

/-! ### Writing the flag, then the result, and ending (R105 to R107) -/

section
variable (s : State)

/-- What is left of the state, apart from VF and the destination, by an instruction that writes a flag and a result. -/
theorem State.setFlagThenReg_next_frame (x : RegIdx) (f b : Byte) :
    (s.setFlagThenReg x f b).next.pc = s.pc + 2 ∧ (s.setFlagThenReg x f b).next.prevKeys = s.host.keys ∧
    s.keepsAllBut (s.setFlagThenReg x f b).next [.reg VF, .reg x, .pc, .latch] :=
  ⟨rfl, rfl, s.keepsAllBut_setFlagThenReg_commit x f b _⟩

/-- The destination holds the result, for `x = F` too, since the flag is written first (D10). -/
theorem State.reg_setFlagThenReg_next_self (x : RegIdx) (f b : Byte) : (s.setFlagThenReg x f b).next.reg x = b :=
  (s.reg_setFlagThenReg x x f b).trans (if_pos rfl)

/-- The flag stands in VF unless VF is the destination. -/
theorem State.reg_VF_setFlagThenReg_next {x : RegIdx} (hx : x ≠ VF) (f b : Byte) :
    (s.setFlagThenReg x f b).next.reg VF = f :=
  (s.reg_setFlagThenReg x VF f b).trans ((if_neg hx.symm).trans (if_pos rfl))

end

theorem toNat_flagByte_decide (p : Prop) [Decidable p] : (flagByte (decide p)).toNat = if p then 1 else 0 := by
  by_cases h : p <;> simp [flagByte, h]

/-- The difference of two bytes is the mathematical remainder modulo 256 (R107). -/
theorem toNat_sub_eq_emod (a b : Byte) : ((a - b).toNat : Int) = ((a.toNat : Int) - (b.toNat : Int)) % 256 := by
  have hb := b.isLt
  rw [BitVec.toNat_sub]
  omega

/-- Settles O6: the result is the wrapping sum of the old registers, and the flag is the carry of the widened sum. -/
theorem addRegSetsSumAndCarry : Obligations.AddRegSetsSumAndCarry := by
  refine fun s x y => ⟨_, rfl, ?_, fun hx => ?_, s.setFlagThenReg_next_frame x _ _⟩
  · rw [s.reg_setFlagThenReg_next_self, BitVec.toNat_add]
  · rw [s.reg_VF_setFlagThenReg_next hx]
    exact toNat_flagByte_decide _

/-- Settles O7: the result is the wrapping difference of the old registers, and the flag is their strict comparison. -/
theorem subRegSetsDifferenceAndNoBorrow : Obligations.SubRegSetsDifferenceAndNoBorrow := by
  refine fun s x y => ⟨_, rfl, ?_, fun hx => ?_, s.setFlagThenReg_next_frame x _ _⟩
  · rw [s.reg_setFlagThenReg_next_self]
    exact toNat_sub_eq_emod _ _
  · rw [s.reg_VF_setFlagThenReg_next hx]
    exact toNat_flagByte_decide _

/-! ### The random byte (R108) -/

/-- Settles O48: Fx18 copies a register to the sound timer, and every other instruction but Cxkk ends alike whatever the
random byte is, which stays at the host port. -/
theorem onlyRndReadsTheRandomByte : Obligations.OnlyRndReadsTheRandomByte := by
  intro i s t b hrnd h
  by_cases hi : ∃ x, i = .ldStVx x
  · obtain ⟨x, rfl⟩ := hi
    cases h
    rfl
  · rcases exec_withUnread i s s.ST s.prevKeys b (fun x hx => hi ⟨x, hx⟩) (.inl rfl) (.inr hrnd) with
      ⟨u, w, hs, hu, hST, _⟩ | ⟨k, hs, hu⟩
    · cases hs.symm.trans h
      refine hu.trans ?_
      simp [State.withUnread, State.commit, ← hST]
    · cases hs.symm.trans h
      exact hu

end Sys2Proof.Machine
end

section
/-! PROOFS. The index register and memory (43_index_memory.md): the bytes a run of writes leaves, the frames of the
updates of I and of memory, and the six instructions of the family. -/

namespace Sys2Proof.Machine

/-! ### The bytes of a run (R13, R43) -/

namespace Memory
variable {m : Memory} {a : Nat} {bs : List Byte}

/-- Inside the run stands the byte written there. -/
theorem read_writeBytes_add (h : m.wf = true) (ha : a + bs.length ≤ Config.memSize) {k : Nat} (hk : k < bs.length) :
    read (writeBytes m a bs) (a + k) = bs[k] := by
  rw [read_writeBytes h ha, if_pos (by omega), Nat.add_sub_cancel_left]
  exact (List.getElem_eq_getD 0).symm

end Memory

/-- The hundreds, tens and ones of a byte are digits, so none of them is cut to fit a byte (R123). -/
theorem toNat_decimalDigits (v : Byte) : (decimalDigits v)[0].toNat = v.toNat / 100 ∧
    (decimalDigits v)[1].toNat = v.toNat / 10 % 10 ∧ (decimalDigits v)[2].toNat = v.toNat % 10 := by
  have hv := v.isLt
  have hdigit : ∀ n < 10, (BitVec.ofNat 8 n).toNat = n := fun n hn => Nat.mod_eq_of_lt (by omega)
  exact ⟨hdigit _ (by omega), hdigit _ (by omega), hdigit _ (by omega)⟩

/-! ### What an update of I or of memory leaves of the state -/

section
variable (s : State)

theorem State.keepsAllBut_setI_commit (v w : Word) :
    s.keepsAllBut (({ s with I := v } : State).commit w) [.index, .pc, .latch] :=
  State.keepsAllBut_append (s.keepsAllBut_setI v) (State.keepsAllBut_commit _ w)

theorem State.keepsAllBut_setMem_commit (m : Memory) (w : Word) :
    s.keepsAllBut (({ s with mem := m } : State).commit w) [.memory, .pc, .latch] :=
  State.keepsAllBut_append (s.keepsAllBut_setMem m) (State.keepsAllBut_commit _ w)

end

/-- An instruction leaves every byte outside the run of its row as it was, whether it completes or faults (R43). -/
theorem read_outside_run_of_exec {i : Instr} {s t : State} (h : exec i s = .next t) (hwf : s.mem.wf = true) {a : Nat}
    (ha : a < s.I.toNat ∨ s.I.toNat + i.storeLength ≤ a) : Memory.read t.mem a = Memory.read s.mem a := by
  rcases completed_or_raised h with hc | ⟨k, rfl⟩
  · exact hc.read_outside_run hwf ha
  · rfl

/-! ### The stores and the load (R123 to R125) -/

/-- Settles O19: the run written is the three digits, the hundreds at the lowest address. -/
theorem ldBStoresDecimalDigits : Obligations.LdBStoresDecimalDigits := by
  intro s x hwf hle
  have hexec := exec_ldB_of_legal s x hle
  have hrun : s.I.toNat + (decimalDigits (s.reg x)).length ≤ Config.memSize := by
    simp only [decimalDigits_length, Config.memSize]; omega
  have hread : ∀ k (hk : k < (decimalDigits (s.reg x)).length),
      (Memory.read (Memory.writeBytes s.mem s.I.toNat (decimalDigits (s.reg x))) (s.I.toNat + k)).toNat =
        (decimalDigits (s.reg x))[k].toNat :=
    fun _ hk => congrArg BitVec.toNat (Memory.read_writeBytes_add hwf hrun hk)
  obtain ⟨hhundreds, htens, hones⟩ := toNat_decimalDigits (s.reg x)
  exact ⟨_, hexec, (hread 0 (by simp)).trans hhundreds, (hread 1 (by simp)).trans htens,
    (hread 2 (by simp)).trans hones, fun a ha => read_outside_run_of_exec hexec hwf ha, rfl, rfl,
    s.keepsAllBut_setMem_commit _ _⟩

/-- Settles O20: the run written is `V0..Vx`, and a byte above `I + x` is past its end. -/
theorem storeRegsStoresTheRun : Obligations.StoreRegsStoresTheRun := by
  intro s x hwf hle
  have hexec := exec_storeRegs_of_legal s x hle
  exact ⟨_, hexec, fun r hr => read_of_storeRegs hwf hle hexec hr,
    fun a ha => read_outside_run_of_exec hexec hwf ha, rfl, rfl, s.keepsAllBut_setMem_commit _ _⟩

/-- Settles O21: the registers up to `Vx` are set and those above it are not, and the frame is the row of Fx65. -/
theorem loadRegsLoadsTheRun : Obligations.LoadRegsLoadsTheRun := by
  intro s x hle
  refine ⟨_, exec_loadRegs_of_legal s x hle, fun r hr => ?_, fun r hr => ?_, rfl, rfl, ?_⟩
  · rw [State.reg_commit, State.reg_setRegsThrough, if_pos hr]
  · rw [State.reg_commit, State.reg_setRegsThrough, if_neg hr.not_ge]
  · exact keepsAllBut_commit_of_subset_writes (i := .loadRegs x) (s.keepsAllBut_setRegsThrough x _)
      (List.subset_append_right _ _)

/-! ### The writers of I (R120 to R122) -/

/-- Settles O16: I takes the zero-extended address. -/
theorem ldISetsIndex : Obligations.LdISetsIndex :=
  fun s nnn => ⟨_, rfl, addr16_toNat nnn, rfl, rfl, s.keepsAllBut_setI_commit _ _⟩

/-- Settles O17: a sum that fits 16 bits is not cut by them, and a greater one raises a fault, which touches the fault
status and the host's result only. -/
theorem addISumsOrOverflows : Obligations.AddISumsOrOverflows := by
  refine fun s x => ⟨fun hle => ?_, fun hgt => ?_⟩
  · have hsum : (BitVec.ofNat 16 (s.I.toNat + (s.reg x).toNat)).toNat = s.I.toNat + (s.reg x).toNat :=
      Nat.mod_eq_of_lt (by omega)
    exact ⟨_, exec_addI_of_le s x hle, hsum, rfl, rfl, s.keepsAllBut_setI_commit _ _⟩
  · exact ⟨_, exec_addI_of_gt s x hgt, rfl, rfl, s.keepsAllBut_raise _ _⟩

/-- Settles O18: I takes the address of the glyph, which fits 16 bits for every byte. -/
theorem ldFPointsAtGlyph : Obligations.LdFPointsAtGlyph :=
  fun s x => ⟨_, rfl, glyphAddr_toNat (s.reg x), rfl, rfl, s.keepsAllBut_setI_commit _ _⟩

end Sys2Proof.Machine
end

section
/-! PROOFS. The display (44_display.md): drawing as an involution of the pixels, its collision note as the pixels turned
off, and the two instructions of the family. -/

namespace Sys2Proof.Machine

/-! ### One draw and a second one (R131, R133) -/

section
variable (mem : Memory) (a cx cy : Nat) {n : Nat}

/-- A pixel lies under a sprite bit, or every draw of the sprite leaves it. -/
theorem under_sprite_or_drawRows_get_eq (hn : n ≤ 32) (r : Fin Config.rows) (c : Fin Config.cols) :
    (∃ k < n, ∃ j < 8, wrapRow (cy + k) = r ∧ wrapCol (cx + j) = c) ∨
      ∀ p, (drawRows mem a cx cy n p).1.get r c = p.1.get r c := by
  by_cases h : ∃ k < n, ∃ j < 8, wrapRow (cy + k) = r ∧ wrapCol (cx + j) = c
  · exact .inl h
  · exact .inr fun p => drawRows_get_other mem a cx cy hn p fun k hk j hj hpos => h ⟨k, hk, j, hj, hpos⟩

/-- The note says that some pixel went from on to off. -/
theorem drawRows_hit_iff_turned_off (hn : n ≤ 32) (d : Display) :
    (drawRows mem a cx cy n (d, false)).2 = true ↔
      ∃ r c, d.get r c = true ∧ (drawRows mem a cx cy n (d, false)).1.get r c = false := by
  rw [drawRows_hit mem a cx cy hn]
  constructor
  · rintro ⟨k, hk, j, hj, hset, hon⟩
    refine ⟨_, _, hon, ?_⟩
    simp [drawRows_get_target mem a cx cy hn _ hk hj, hset, hon]
  · rintro ⟨r, c, hon, hoff⟩
    rcases under_sprite_or_drawRows_get_eq mem a cx cy hn r c with ⟨k, hk, j, hj, rfl, rfl⟩ | hkept
    · refine ⟨k, hk, j, hj, ?_, hon⟩
      simpa [drawRows_get_target mem a cx cy hn _ hk hj, hon] using hoff
    · simp [hkept, hon] at hoff

/-- Each pixel is XORed with the same bit twice. -/
theorem drawRows_twice (hn : n ≤ 32) (p : Display × Bool) (hit : Bool) :
    (drawRows mem a cx cy n ((drawRows mem a cx cy n p).1, hit)).1 = p.1 := by
  refine Display.ext_get fun r c => ?_
  rcases under_sprite_or_drawRows_get_eq mem a cx cy hn r c with ⟨k, hk, j, hj, rfl, rfl⟩ | hkept
  · simp [drawRows_get_target mem a cx cy hn _ hk hj]
  · simp [hkept]

/-- The second draw meets the pixels the first one turned on. -/
theorem drawRows_twice_hit (hn : n ≤ 32) (p : Display × Bool) :
    (drawRows mem a cx cy n ((drawRows mem a cx cy n p).1, false)).2 = true ↔
      ∃ k < n, ∃ j < 8, spriteBit (Memory.read mem (a + k)) j = true ∧
        p.1.get (wrapRow (cy + k)) (wrapCol (cx + j)) = false := by
  have hflipped : ∀ k < n, ∀ j < 8, spriteBit (Memory.read mem (a + k)) j = true →
      (drawRows mem a cx cy n p).1.get (wrapRow (cy + k)) (wrapCol (cx + j)) =
        !p.1.get (wrapRow (cy + k)) (wrapCol (cx + j)) := by
    intro k hk j hj hset
    rw [drawRows_get_target mem a cx cy hn p hk hj, hset, Bool.xor_true]
  rw [drawRows_hit mem a cx cy hn]
  constructor
  · rintro ⟨k, hk, j, hj, hset, hon⟩
    exact ⟨k, hk, j, hj, hset, by simpa [hflipped k hk j hj hset] using hon⟩
  · rintro ⟨k, hk, j, hj, hset, hoff⟩
    exact ⟨k, hk, j, hj, hset, by simp [hflipped k hk j hj hset, hoff]⟩

end

/-! ### Dxyn (R131 to R133) -/

theorem State.keepsAllBut_setDisp_commit (s : State) (d : Display) (w : Word) :
    s.keepsAllBut (({ s with disp := d } : State).commit w) [.display, .pc, .latch] :=
  State.keepsAllBut_append (s.keepsAllBut_setDisp d) (State.keepsAllBut_commit _ w)

/-- What a completed Dxyn leaves: the display and VF are those of the draw, and the sprite's source is as it was. -/
theorem drawn_of_exec_drw {s t : State} {x y : RegIdx} {n : Nat} (hle : n = 0 ∨ s.I.toNat + n - 1 ≤ 0xFFF)
    (h : exec (.drw x y n) s = .next t) :
    t.disp = (drawRows s.mem s.I.toNat (s.reg x).toNat (s.reg y).toNat n (s.disp, false)).1 ∧
    t.reg VF = collisionFlag (drawRows s.mem s.I.toNat (s.reg x).toNat (s.reg y).toNat n (s.disp, false)).2 ∧
    t.mem = s.mem ∧ t.I = s.I := by
  cases (exec_drw_of_legal s x y n hle).symm.trans h
  exact ⟨rfl, State.reg_setReg_self _ VF _, rfl, rfl⟩

/-- Settles O25: the old coordinates place the sprite, each of its bits is XORed onto a pixel of its own, and the collision
note is the pixels turned off. -/
theorem drwXorsTheSpritePerAxis : Obligations.DrwXorsTheSpritePerAxis := by
  intro s x y n hn hle
  have hexec := exec_drw_of_legal s x y n hle
  refine ⟨_, hexec, ?_⟩
  obtain ⟨hdisp, hVF, -, -⟩ := drawn_of_exec_drw hle hexec
  rw [hdisp, hVF]
  refine ⟨fun k hk j hj r c hr hc => ?_, fun r c hother => ?_, collisionFlag_cases _, ?_, rfl, rfl,
    State.keepsAllBut_append (s.keepsAllBut_setDisp _) (State.keepsAllBut_setReg_commit _ VF _ _)⟩
  · rw [wrapRow_eq hr, wrapCol_eq hc]
    exact drawRows_get_target _ _ _ _ (by omega) _ hk hj
  · exact drawRows_get_other _ _ _ _ (by omega) _ fun k hk j hj ⟨hr, hc⟩ => hother k hk j hj ⟨hr ▸ rfl, hc ▸ rfl⟩
  · exact (collisionFlag_eq_one _).trans (drawRows_hit_iff_turned_off _ _ _ _ (by omega) _)

/-- Settles O26: the second draw has the source and the coordinates of the first, so it is the same draw again. -/
theorem doubleDrawRestoresTheDisplay : Obligations.DoubleDrawRestoresTheDisplay := by
  intro s t x y n hn hle h hx hy
  obtain ⟨hdisp, -, hmem, hI⟩ := drawn_of_exec_drw hle h
  have hle' : n = 0 ∨ t.I.toNat + n - 1 ≤ 0xFFF := hI ▸ hle
  have hexec := exec_drw_of_legal t x y n hle'
  refine ⟨_, hexec, ?_⟩
  obtain ⟨hdisp', hVF', -, -⟩ := drawn_of_exec_drw hle' hexec
  rw [hdisp', hVF', hmem, hI, hx, hy, hdisp]
  refine ⟨fun r c => ?_, (collisionFlag_eq_one _).trans ?_, collisionFlag_cases _⟩
  · rw [drawRows_twice _ _ _ _ (by omega)]
  · rw [drawRows_twice_hit _ _ _ _ (by omega)]
    constructor
    · rintro ⟨k, hk, j, hj, hset, hoff⟩
      exact ⟨k, hk, j, hj, hset, _, _, rfl, rfl, hoff⟩
    · rintro ⟨k, hk, j, hj, hset, r, c, hr, hc, hoff⟩
      exact ⟨k, hk, j, hj, hset, wrapRow_eq hr ▸ wrapCol_eq hc ▸ hoff⟩

/-! ### 00E0 (R130) -/

/-- Settles O24: the display written is the one with every pixel off. -/
theorem clsTurnsEveryPixelOff : Obligations.ClsTurnsEveryPixelOff :=
  fun s => ⟨_, rfl, Display.get_off, rfl, rfl, s.keepsAllBut_setDisp_commit _ _⟩

end Sys2Proof.Machine
end

section
/-! PROOFS. The timers and the keys (45_timers_keys.md): what the edge detector answers, the two endings of Fx0A, the
frames of the timer updates, and the six instructions of the family. -/

namespace Sys2Proof.Machine

/-! ### The edge detector (R165) -/

section
variable {p keys : KeyMask}

/-- The detector reports nothing exactly when every key that was pressed still is. -/
theorem edgeDetect_eq_none_iff :
    edgeDetect p keys = none ↔ ∀ k < 16, p.getLsbD k = true → keys.getLsbD k = true := by
  rw [← released_mask_eq_zero, edgeDetect]
  split
  · next h => exact iff_of_true rfl h
  · next h => exact iff_of_false (Option.some_ne_none _) h

/-- A key the detector reports was pressed and is not any more. -/
theorem released_of_edgeDetect_eq_some {k : Key} (h : edgeDetect p keys = some k) :
    p.getLsbD k.val = true ∧ keys.getLsbD k.val = false := by
  rcases edgeDetect_spec p keys with ⟨hnone, -⟩ | ⟨k', hk', hreleased⟩
  · cases hnone.symm.trans h
  · cases hk'.symm.trans h
    exact hreleased

/-- Where some key was released, the detector reports one. -/
theorem exists_edgeDetect_eq_some {k : Nat} (hk : k < 16) (hp : p.getLsbD k = true) (hkeys : keys.getLsbD k = false) :
    ∃ k', edgeDetect p keys = some k' := by
  refine Option.ne_none_iff_exists'.mp fun hnone => ?_
  simpa [hkeys] using edgeDetect_eq_none_iff.mp hnone k hk hp

end

/-! ### Fx0A (R145) -/

/-- A key number fits a byte. -/
theorem toNat_ofNat_key (k : Key) : (BitVec.ofNat 8 k.val).toNat = k.val :=
  Nat.mod_eq_of_lt (by have := key_lt k; omega)

section
variable (s : State)

/-- STAY touches the latch only: pc is written with its own value (R87). -/
theorem State.keepsAllBut_commit_pc : s.keepsAllBut (s.commit s.pc) [.latch] := by
  intro e he
  by_cases hpc : e = .pc
  · subst hpc; rfl
  · exact s.keepsAllBut_commit s.pc e (by simp_all)

/-- Fx0A waits: it writes the latch only. -/
theorem State.exec_ldVxK_waits (x : RegIdx) (h : edgeDetect s.prevKeys s.host.keys = none) :
    ∃ t, exec (.ldVxK x) s = .next t ∧ t.prevKeys = s.host.keys ∧ s.keepsAllBut t [.latch] :=
  ⟨_, exec_ldVxK_of_none x h, rfl, s.keepsAllBut_commit_pc⟩

/-- Fx0A ends the wait: the reported key goes into the register. -/
theorem State.exec_ldVxK_loads (x : RegIdx) {k : Key} (h : edgeDetect s.prevKeys s.host.keys = some k) :
    ∃ t, exec (.ldVxK x) s = .next t ∧ (t.reg x).toNat = k.val ∧ t.pc = s.pc + 2 ∧ t.prevKeys = s.host.keys ∧
      s.keepsAllBut t [.reg x, .pc, .latch] := by
  refine ⟨_, exec_ldVxK_of_some x h, ?_, s.setReg_next_frame x _⟩
  rw [State.reg_commit, State.reg_setReg_self, toNat_ofNat_key]

end

/-- Settles O33: the masks decide whether the detector reports a key, the report decides between waiting and loading, and
a reported key is a released one. -/
theorem ldVxKWaitsForARelease : Obligations.LdVxKWaitsForARelease := by
  refine fun s x => ⟨fun hheld => s.exec_ldVxK_waits x (edgeDetect_eq_none_iff.mpr hheld), fun k hk hp hkeys => ?_,
    s.exec_ldVxK_waits x, fun k => s.exec_ldVxK_loads x⟩
  obtain ⟨k', hreport⟩ := exists_edgeDetect_eq_some hk hp hkeys
  obtain ⟨hp', hkeys'⟩ := released_of_edgeDetect_eq_some hreport
  obtain ⟨t, hexec, hloaded⟩ := s.exec_ldVxK_loads x hreport
  exact ⟨t, hexec, k', key_lt k', hp', hkeys', hloaded⟩

/-! ### The timers (R140 to R142) -/

section
variable (s : State)

theorem State.keepsAllBut_setDT_commit (v : Byte) (w : Word) :
    s.keepsAllBut (({ s with DT := v } : State).commit w) [.delayTimer, .pc, .latch] :=
  State.keepsAllBut_append (s.keepsAllBut_setDT v) (State.keepsAllBut_commit _ w)

theorem State.keepsAllBut_setST_commit (v : Byte) (w : Word) :
    s.keepsAllBut (({ s with ST := v } : State).commit w) [.soundTimer, .pc, .latch] :=
  State.keepsAllBut_append (s.keepsAllBut_setST v) (State.keepsAllBut_commit _ w)

theorem State.soundActive_iff : s.soundActive = true ↔ s.ST.toNat > 0 := decide_eq_true_iff

end

/-- Settles O28: the byte written is the delay timer. -/
theorem ldVxDtReadsDelayTimer : Obligations.LdVxDtReadsDelayTimer :=
  fun s x => ⟨_, rfl, s.reg_setReg_next_self x _, s.setReg_next_frame x _⟩

/-- Settles O29: the delay timer takes the register. -/
theorem ldDtVxSetsDelayTimer : Obligations.LdDtVxSetsDelayTimer :=
  fun s _ => ⟨_, rfl, rfl, rfl, rfl, s.keepsAllBut_setDT_commit _ _⟩

/-- Settles O30: the sound timer takes the register, and sound is active by the new timer. -/
theorem ldStVxSetsSoundTimer : Obligations.LdStVxSetsSoundTimer :=
  fun s _ => ⟨_, rfl, rfl, State.soundActive_iff _, rfl, rfl, s.keepsAllBut_setST_commit _ _⟩

/-! ### The key skips (R143, R144) -/

/-- The condition of ExA1 is the opposite of that of Ex9E, for codes 16 to 255 too (D18). -/
theorem not_keyPressed_iff (keys : KeyMask) (v : Byte) :
    (!keyPressed keys v) = true ↔ ¬(v.toNat ≤ 15 ∧ keys.getLsbD v.toNat = true) := by
  rw [← keyPressed_iff, Bool.not_eq_true', Bool.not_eq_true]

/-- Settles O31: Ex9E is a skip on the key pressed. -/
theorem skpSkipsWhenKeyPressed : Obligations.SkpSkipsWhenKeyPressed :=
  fun s _ => ⟨_, rfl, s.skipIf_pc (keyPressed_iff _ _), s.skipIf_prevKeys _, s.keepsAllBut_skipIf _⟩

/-- Settles O32: ExA1 is a skip on the key not pressed, so the branches change places. -/
theorem sknpSkipsWhenKeyNotPressed : Obligations.SknpSkipsWhenKeyNotPressed :=
  fun s _ => ⟨_, rfl, (s.skipIf_pc (not_keyPressed_iff _ _)).trans (ite_not _ _ _), s.skipIf_prevKeys _,
    s.keepsAllBut_skipIf _⟩

end Sys2Proof.Machine
end

section
/-! PROOFS. The host's transactions (60_exceptions.md): what can halt a running block and what the fault records, the
retry of a LOAD, TICK, and the outputs and the edge detector the host reads. -/

namespace Sys2Proof.Machine

/-! ### The outputs (R28, R165, R167) -/

/-- The display the host reads is the grid flattened, row after row. -/
theorem State.display_eq_flatten (s : State) : s.display = s.disp.flatten.toList := by
  simp only [State.display, List.flatMap_def, Vector.toList, Vector.flatten, Array.toList_flatten, Array.toList_map,
    List.map_map, Function.comp_def]

/-- Settles O27: element `r * 64 + c` of the flattened grid is in row `r` at column `c`, by division with remainder. -/
theorem displayOutputIsRowMajor : Obligations.DisplayOutputIsRowMajor := by
  intro s
  rw [s.display_eq_flatten]
  refine ⟨Vector.length_toList, fun r c => ?_⟩
  have hr := row_lt r
  have hc := col_lt c
  have hlt : r.val * 64 + c.val < 32 * 64 := by omega
  have hrow : (r.val * 64 + c.val) / 64 = r.val := by omega
  have hcol : (r.val * 64 + c.val) % 64 = c.val := by omega
  calc s.disp.flatten.toList[r.val * 64 + c.val]?
      = some s.disp.flatten[r.val * 64 + c.val] := by simp [hlt]
    _ = some (s.disp.get r c) := by simp only [Vector.getElem_flatten, hrow, hcol, Display.get]

/-- Settles O34: some released key is reported, and a reported key is a released one, so the only one released is it. -/
theorem edgeDetectorReportsAReleasedKey : Obligations.EdgeDetectorReportsAReleasedKey := by
  refine fun p keys => ⟨edgeDetect_eq_none_iff, fun _ => released_of_edgeDetect_eq_some, fun k hp hkeys hunique => ?_⟩
  obtain ⟨k', hreport⟩ := exists_edgeDetect_eq_some (key_lt k) hp hkeys
  obtain ⟨hp', hkeys'⟩ := released_of_edgeDetect_eq_some hreport
  rw [hreport, Fin.ext (hunique k' (key_lt k') hp' hkeys')]

/-! ### The faults of the instructions (R150, R153) -/

section
variable {i : Instr} {s t u : State} {k : FaultKind} {w : Word}

/-- An instruction that ends by `commit` on an update that leaves the fault status alone leaves a running block
running. -/
theorem running_of_exec_commit (hr : s.running) (hx : exec i s = .next (u.commit w)) (hu : u.status = s.status)
    (h : exec i s = .next t) : t.running := by
  cases hx.symm.trans h
  exact (congrArg FaultStatus.halted hu).trans hr

theorem fcode_of_exec_raise (hx : exec i s = .next (s.raise k w)) (h : exec i s = .next t) :
    t.status.fcode = k.code := by
  cases hx.symm.trans h
  rfl

theorem running_of_exec_skipIf {c : Bool} (hr : s.running) (hx : exec i s = .next (s.skipIf c))
    (h : exec i s = .next t) : t.running :=
  running_of_exec_commit hr (hx.trans (congrArg _ (s.skipIf_eq_commit c))) rfl h

end

/-- Settles O35, instruction by instruction: where its condition holds it raises its own code, and everywhere else it
ends by `commit`, which leaves the block running. -/
theorem eachInstructionRaisesOnlyItsFault : Obligations.EachInstructionRaisesOnlyItsFault := by
  intro i s t hr h ht
  cases i with
  | ret =>
    rcases Nat.eq_zero_or_pos s.depth.val with h0 | hpos
    · exact ⟨fcode_of_exec_raise (exec_ret_of_empty s h0) h, h0⟩
    · exact absurd (running_of_exec_commit hr (exec_ret_of_pos s hpos) rfl h) ht
  | call nnn =>
    rcases Nat.lt_or_ge s.depth.val 16 with hlt | hge
    · exact absurd (running_of_exec_commit hr (exec_call_of_lt s nnn hlt) rfl h) ht
    · have hfull : s.depth.val = 16 := Nat.le_antisymm (depth_le s) hge
      exact ⟨fcode_of_exec_raise (exec_call_of_full s nnn hfull) h, hfull⟩
  | drw x y n =>
    by_cases hle : n = 0 ∨ s.I.toNat + n - 1 ≤ 0xFFF
    · exact absurd (running_of_exec_commit hr (exec_drw_of_legal s x y n hle) rfl h) ht
    · have hpos : 0 < n := by omega
      have hgt : s.I.toNat + n - 1 > 0xFFF := by omega
      exact ⟨fcode_of_exec_raise (exec_drw_of_gt s x y n hpos hgt) h, hpos, hgt⟩
  | ldB x =>
    rcases Nat.lt_or_ge 0xFFF (s.I.toNat + 2) with hgt | hle
    · exact ⟨fcode_of_exec_raise (exec_ldB_of_gt s x hgt) h, hgt⟩
    · exact absurd (running_of_exec_commit hr (exec_ldB_of_legal s x hle) rfl h) ht
  | storeRegs x =>
    rcases Nat.lt_or_ge 0xFFF (s.I.toNat + x.val) with hgt | hle
    · exact ⟨fcode_of_exec_raise (exec_storeRegs_of_gt s x hgt) h, hgt⟩
    · exact absurd (running_of_exec_commit hr (exec_storeRegs_of_legal s x hle) rfl h) ht
  | loadRegs x =>
    rcases Nat.lt_or_ge 0xFFF (s.I.toNat + x.val) with hgt | hle
    · exact ⟨fcode_of_exec_raise (exec_loadRegs_of_gt s x hgt) h, hgt⟩
    · exact absurd (running_of_exec_commit hr (exec_loadRegs_of_legal s x hle) rfl h) ht
  | addI x =>
    rcases Nat.lt_or_ge 0xFFFF (s.I.toNat + (s.reg x).toNat) with hgt | hle
    · exact ⟨fcode_of_exec_raise (exec_addI_of_gt s x hgt) h, hgt⟩
    · exact absurd (running_of_exec_commit hr (exec_addI_of_le s x hle) rfl h) ht
  | ldVxK x =>
    cases hrel : s.released with
    | none => exact ht (running_of_exec_commit hr (exec_ldVxK_of_none x hrel) rfl h)
    | some k => exact ht (running_of_exec_commit hr (exec_ldVxK_of_some x hrel) rfl h)
  | seImm | sneImm | seReg | skp | sknp => exact ht (running_of_exec_skipIf hr rfl h)
  | _ => exact ht (running_of_exec_commit hr rfl (by rfl) h)

/-! ### Only a STEP halts a running block (R152, R155) -/

section
variable {s b : State} {font : Vector Byte Config.fontSize} {image : List Byte}

/-- A newly loaded block has an empty fault status (R36, R180). -/
theorem running_of_load (h : State.load font image = some b) : b.running := by
  unfold State.load at h
  split at h <;> cases h
  rfl

/-- A LOAD builds a running block, or it is ProgramTooLarge and leaves the fault status alone (R180, R181). -/
theorem running_loadTx (hr : s.running) : (loadTx font image s).running := by
  cases hload : State.load font image with
  | none => rw [loadTx_of_none font image s hload]; exact hr
  | some b => rw [loadTx_of_some font image s b hload]; exact (running_of_load hload :)

theorem running_tick (hr : s.running) : (tick s).running :=
  (congrArg FaultStatus.halted (s.keepsAllBut_tick .faultStatus (by simp))).trans hr

end

/-- Settles O36: a LOAD and a TICK leave a running block running, and so does a completed instruction; a STEP that
raises a fault records the word fetched, which for a decoded instruction is its encoding (R64). -/
theorem faultsArePrecise : Obligations.FaultsArePrecise := by
  intro s t hr h ht
  rcases step_cases s t h with ⟨font, image, rest, _, rfl⟩ | ⟨rest, _, rfl⟩ | ⟨p, hp, hstep⟩
  · exact (ht (running_loadTx hr)).elim
  · exact (ht (running_tick hr)).elim
  · rcases hstep with ⟨hh, _⟩ | ⟨_, hpc, rfl⟩ | ⟨_, w, hf, _, rfl⟩ | ⟨_, w, i, hf, hd, hx⟩
    · cases hr.symm.trans hh
    · exact ⟨⟨_, hp⟩, rfl, rfl, .inr ⟨hpc, rfl, rfl⟩, s.keepsAllBut_raise_withHost p _ 0⟩
    · exact ⟨⟨_, hp⟩, rfl, rfl, .inl hf, s.keepsAllBut_raise_withHost p _ w⟩
    · rcases completed_or_raised hx with hc | ⟨k, rfl⟩
      · exact absurd ((congrArg FaultStatus.halted hc.status_eq).trans hr) ht
      · have hword : s.fetch = some (encode i) := by rw [encode_of_decodeWord hd]; exact hf
        exact ⟨⟨_, hp⟩, rfl, rfl, .inl hword, s.keepsAllBut_raise_withHost p k _⟩

/-! ### LOAD and its retry (R151, R180, R181) -/

/-- An image above the limit is ProgramTooLarge (R181). -/
theorem load_eq_none_of_gt {font : Vector Byte Config.fontSize} {image : List Byte} (h : image.length > 3584) :
    State.load font image = none := if_pos h

/-- Settles O60, by induction on the LOADs that are too large: each touches the host port only, so the rest of the queue
finds the inputs the first one found, and the LOAD that fits puts its block in place of whatever is there. -/
theorem programTooLargeIsRecoverable : Obligations.ProgramTooLargeIsRecoverable := by
  intro tooLarge font image s b rest hlarge hload hp
  induction tooLarge generalizing s with
  | nil =>
    have hstep := step_load s font image rest hp
    rw [loadTx_of_some font image _ b hload] at hstep
    exact run_succ_of_step 0 hstep
  | cons q qs ih =>
    obtain ⟨hq, hqs⟩ := List.forall_mem_cons.mp hlarge
    have hstep := step_load s q.1 q.2 _ hp
    rw [loadTx_of_none q.1 q.2 _ (load_eq_none_of_gt hq)] at hstep
    exact (run_succ_of_step _ hstep).trans (ih _ hqs rfl)

/-! ### TICK (R164) -/

/-- Settles O42: it is the rule of one queued TICK. -/
theorem tickCountsBothTimersDown : Obligations.TickCountsBothTimersDown :=
  fun _ _ hb hr hp => step_tick_counts_down hb hr hp

end Sys2Proof.Machine
end

section
/-! PROOFS. What a LOAD builds (70_reset_and_hazards.md rules R180 to R182), and when it is ProgramTooLarge. -/

namespace Sys2Proof.Machine

/-! ### Memory after a LOAD that fits, area by area (R180) -/

namespace Memory
variable (font : Vector Byte Config.fontSize) {image : List Byte} (h : image.length ≤ Config.maxImage)
include h

theorem read_ofLoad_font (j : Fin Config.fontSize) : read (ofLoad font image) j.val = font[j.val] := by
  have hj : j.val < font.toList.length := by rw [font_length]; exact j.isLt
  calc read (ofLoad font image) j.val
    _ = font.toList.getD j.val 0 := by rw [read_ofLoad font h, if_pos j.isLt]
    _ = font.toList[j.val] := (List.getElem_eq_getD 0).symm
    _ = font[j.val] := Vector.getElem_toList hj

theorem read_ofLoad_image {k : Nat} (hk : k < image.length) : read (ofLoad font image) (0x200 + k) = image[k] := by
  rw [read_ofLoad font h, if_neg (by omega), if_pos (by omega), Nat.add_sub_cancel_left]
  exact (List.getElem_eq_getD 0).symm

/-- Outside the glyphs and the image every byte is 0x00. -/
theorem read_ofLoad_eq_zero {a : Nat} (hfont : 0x50 ≤ a) (himage : a < 0x200 ∨ 0x200 + image.length ≤ a) :
    read (ofLoad font image) a = 0 := by
  rw [read_ofLoad font h, if_neg (by omega), if_neg (by omega)]

end Memory

/-! ### LOAD on both sides of the limit (R181) -/

section
variable {font : Vector Byte Config.fontSize} {image : List Byte}

/-- An image within the limit is loaded: the reset state with the memory of R180. -/
theorem load_eq_some_of_le (h : image.length ≤ 3584) :
    State.load font image = some { State.reset with mem := Memory.ofLoad font image } := if_neg (Nat.not_lt.mpr h)

theorem load_eq_none_iff : State.load font image = none ↔ image.length > 3584 := by
  refine ⟨fun hnone => Nat.lt_of_not_le fun hle => ?_, load_eq_none_of_gt⟩
  rw [load_eq_some_of_le hle] at hnone
  cases hnone

/-- An image of the longest length leaves no byte of 0x200-0xFFF over. -/
theorem getElem?_eq_read_of_load_longest {t : State} (hlen : image.length = 3584) (h : State.load font image = some t)
    {a : Nat} (hlo : 0x200 ≤ a) (hhi : a ≤ 0xFFF) : image[a - 0x200]? = some (Memory.read t.mem a) := by
  have hle : image.length ≤ 3584 := hlen.le
  have ht : { State.reset with mem := Memory.ofLoad font image } = t :=
    Option.some.inj ((load_eq_some_of_le hle).symm.trans h)
  subst ht
  have hk : a - 0x200 < image.length := by omega
  have hread := Memory.read_ofLoad_image font hle hk
  rw [Nat.add_sub_of_le hlo] at hread
  rw [List.getElem?_eq_getElem hk, hread]

end

/-- Settles O51: the LOAD leaves the reset state with the memory of R180, read area by area. -/
theorem loadBuildsTheBlock : Obligations.LoadBuildsTheBlock := by
  intro s font image rest hp hle
  have hstep := step_load s font image rest hp
  rw [loadTx_of_some font image _ _ (load_eq_some_of_le hle)] at hstep
  refine ⟨_, hstep, Memory.read_ofLoad_font font hle,
    fun a hlo hhi => Memory.read_ofLoad_eq_zero font hle hlo (.inl hhi),
    fun k hk => Memory.read_ofLoad_image font hle hk,
    fun a ha => Memory.read_ofLoad_eq_zero font hle (by omega) (.inr ha),
    fun r => Vector.getElem_replicate r.isLt, rfl, rfl, rfl,
    fun j => Vector.getElem_replicate j.isLt, Display.get_off, rfl, rfl, rfl, rfl, rfl⟩

/-- Settles O52: the check is against 3584 bytes exactly, a LOAD above it touches the host port only, and where no block
exists only a LOAD can be performed. -/
theorem programTooLargeAboveLimit : Obligations.ProgramTooLargeAboveLimit := by
  intro font image
  refine ⟨load_eq_none_iff, fun t hlen h a hlo hhi => getElem?_eq_read_of_load_longest hlen h hlo hhi, ?_,
    step_of_noBlock⟩
  intro s rest hp hgt
  have hstep := step_load s font image rest hp
  rw [loadTx_of_none font image _ (load_eq_none_of_gt hgt)] at hstep
  exact ⟨_, hstep, rfl, rfl⟩

end Sys2Proof.Machine
end
